-- ==== Sys2Proof/Word.lean ====
section
/-! DEFINITION. The words of the block: bits and sequences (00_scope R12), vectors (R13), and the probabilities that
INJ and LOSE take as operands (43_bit_error_injector R127, 44_frame_loss_and_attempt R133). -/

namespace Sys2Proof

/-- A bit is 0 or 1 (R12); `true` is 1. -/
abbrev Bit := Bool

/-- A bit sequence: a finite ordered list, index 0 the first element, the first emitted, the leftmost written (R12). -/
abbrev Bits := List Bit

/-- A byte `B[7:0]` (R61). -/
abbrev Byte := BitVec 8

/-- A nibble `n[3:0]`, bit `i` being the document's `b_i` (R62). -/
abbrev Nibble := BitVec 4

/-- A 7-bit sequence packed as the vector `cw[6:0]`, position `k` at vector bit `6 - k` (R44, R63). -/
abbrev Codeword := BitVec 7

/-- A syndrome `syn[2:0] = (s2,s1,s0)` (R64). -/
abbrev Syndrome := BitVec 3

/-- The table's output `idx`: 0 is "no correction", else the 1-based index of the bit to invert (R66). -/
abbrev Index := BitVec 3

/-- The operation code `op[2:0]`, the only encoded field of a command (R70, R71). -/
abbrev OpCode := BitVec 3

/-- A name of the host notation (R75), as its characters. -/
abbrev Name := List Char

/-- What a host may present as a probability: an exact rational number, in [0,1] or not, or something that is not a
number (R127, R133). The machine format is the open parameter PROB_FORMAT, so the number itself is kept. -/
inductive Prob where
  | num (x : Rat)
  | notANumber
  deriving DecidableEq, Repr

end Sys2Proof
end

