-- ==== Sys2Proof/Machine/Operands.lean ====
section
/-! DEFINITION. Operand access and assembly: fields of a byte, positions of a codeword, slices of a stream, the range
of a probability and the draws it allows (20_memory R40 to R57, 30_encoding R61 to R69). All of it acts on values, never
on storage. -/

namespace Sys2Proof.Machine

/-! ### Bytes and nibbles (R41, R61, R67, R68) -/

/-- `B[7:4] = B / 16`, processed first (R41, R61). -/
def highNibble (B : Byte) : Nibble := BitVec.ofNat 4 (B.toNat / 16)

/-- `B[3:0] = B mod 16`, processed second (R41, R61). -/
def lowNibble (B : Byte) : Nibble := BitVec.ofNat 4 (B.toNat % 16)

/-- `B = 16 * first + second` (R41, R68). -/
def joinNibbles (first second : Nibble) : Byte := BitVec.ofNat 8 (16 * first.toNat + second.toNat)

/-- The document's `b_i = n[i]` (R62, R67). -/
def nibbleBit (n : Nibble) (i : Nat) : Bit := n.getLsbD i

/-- `8*b3 + 4*b2 + 2*b1 + b0` (R15, R68). -/
def packNibble (b3 b2 b1 b0 : Bit) : Nibble :=
  BitVec.ofNat 4 (8 * b3.toNat + 4 * b2.toNat + 2 * b1.toNat + b0.toNat)

/-! ### Codewords (R42, R44, R63) -/

/-- The vector of the sequence `<c0, ..., c6>`: "the written string of the sequence, read as a binary numeral, is the
value of the vector" (R44). -/
def packCodeword (c0 c1 c2 c3 c4 c5 c6 : Bit) : Codeword :=
  BitVec.ofNat 7 (64 * c0.toNat + 32 * c1.toNat + 16 * c2.toNat + 8 * c3.toNat + 4 * c4.toNat + 2 * c5.toNat + c6.toNat)

/-- `c[k]` for a position `k` in 0..6: vector bit `6 - k` (R44). -/
def posBit (c : Codeword) (k : Nat) : Bit := c.getLsbD (6 - k)

/-- A codeword as the sequence `<c0, ..., c6>` (R42). -/
def codewordBits (c : Codeword) : Bits :=
  [posBit c 0, posBit c 1, posBit c 2, posBit c 3, posBit c 4, posBit c 5, posBit c 6]

/-- The unit mask for position `k`: `1 << (6 - k)` (R44). -/
def unitMask (k : Nat) : Codeword := 1#7 <<< (6 - k)

/-- `flip(c, k)` on a codeword, for a position `k` in 0..6 (R12). -/
def flipPos (c : Codeword) (k : Nat) : Codeword := c ^^^ unitMask k

/-- A bit sequence of exactly seven bits as a codeword operand (R48, R63); any other length is none. -/
def codewordOfBits : Bits → Option Codeword
  | [c0, c1, c2, c3, c4, c5, c6] => some (packCodeword c0 c1 c2 c3 c4 c5 c6)
  | _ => none

/-! ### Syndromes (R64, R69) -/

/-- The value `4*s2 + 2*s1 + s0`, the table's address (R64, R69). -/
def packSyndrome (s2 s1 s0 : Bit) : Syndrome := BitVec.ofNat 3 (4 * s2.toNat + 2 * s1.toNat + s0.toNat)

/-! ### Streams (R43, R45, R46, R55) -/

/-- `s[i ..< j]` (R12). -/
def slice (s : Bits) (i j : Nat) : Bits := (s.drop i).take (j - i)

/-- `flip(s, i)`: `s` except that element `i` is inverted; no rule forms an `i` outside `0 .. len-1` (R12, R40). -/
def flipAt : Bits → Nat → Bits
  | [], _ => []
  | b :: s, 0 => (!b) :: s
  | b :: s, i + 1 => b :: flipAt s i

/-- The "consecutive 7-bit codewords" of a stream, from position 0 (R45): codeword `m` is `bits[7m ..< 7m+7]` (R55).
A rest of fewer than seven bits is in none of them. -/
def codewordsOf : Bits → List Codeword
  | c0 :: c1 :: c2 :: c3 :: c4 :: c5 :: c6 :: rest => packCodeword c0 c1 c2 c3 c4 c5 c6 :: codewordsOf rest
  | _ => []

/-- Codewords written one after the other: "no padding, no framing markers" (R43, R65). -/
def streamOf : List Codeword → Bits
  | [] => []
  | c :: cs => codewordBits c ++ streamOf cs

/-- Nibbles regrouped "two-at-a-time into bytes (first nibble = high 4 bits, second = low 4 bits)" (R46, R102). -/
def regroup : List Nibble → List Byte
  | a :: b :: rest => joinNibbles a b :: regroup rest
  | _ => []

/-! ### Probabilities and the draws they allow (R121, R127, R131, R133) -/

/-- "a number in [0,1]" (R73, R127, R133). -/
def inUnitRange : Prob → Bool
  | .num x => decide (0 ≤ x) && decide (x ≤ 1)
  | .notANumber => false

/-- Whether a Boolean draw of probability `x` can answer `b`: true only if `x > 0`, false only if `x < 1`
(R121, R131). -/
def allowsDraw : Prob → Bool → Bool
  | .num x, true => decide (0 < x)
  | .num x, false => decide (x < 1)
  | .notANumber, _ => false

end Sys2Proof.Machine
end

