-- ==== Sys2Proof/Machine/Transaction.lean ====
section
/-! DEFINITION. The command format (30_encoding R71): a host transaction is the triple (op, operands, draws), and a line of
a host program (R75) is a transaction whose operands may be names bound by earlier lines. -/

namespace Sys2Proof.Machine

/-- An operand value as the host writes it (R75): a number (a nibble, syndrome or index), a byte sequence, a bit sequence
(a codeword is one of seven bits, R63), or a probability. -/
inductive Value where
  | num (n : Nat)
  | bytes (x : List Byte)
  | bits (s : Bits)
  | prob (p : Prob)
  deriving DecidableEq, Repr

/-- A draw as the host writes it: `fire=0|1`, `pos=<number>`, `lose=0|1` (R29, R75). -/
inductive Draw where
  | fire (b : Bool)
  | pos (n : Nat)
  | lose (b : Bool)
  deriving DecidableEq, Repr

/-- The triple (op, operands, draws) (R71). "The only encoded field is `op[2:0]`; operands, draws and results travel as
values". -/
structure Transaction where
  op       : OpCode
  operands : List Value
  draws    : List Draw
  deriving DecidableEq, Repr

/-- The parts of a result that has several: DECW's `nib`, `syn`, `cc` (R101) and SLUT's `idx`, `mask` (R110). -/
inductive ResultPart where
  | nib
  | syn
  | cc
  | idx
  | mask
  deriving DecidableEq, Repr

/-- An operand form of a host line (R75): a literal value, or a name of an earlier line. A name whose result has several
parts is used one part at a time, as `d.nib` (95_test_vectors P6). -/
inductive Arg where
  | lit (v : Value)
  | ref (n : Name)
  | part (n : Name) (f : ResultPart)
  deriving DecidableEq, Repr

/-- One line `name = OP(operands ; draws)` of a host program (R75). -/
structure Line where
  name  : Name
  op    : OpCode
  args  : List Arg
  draws : List Draw
  deriving DecidableEq, Repr

end Sys2Proof.Machine
end

