-- ==== Sys2Proof/Syntax.lean ====
section
/-! DEFINITION. The operation set (30_encoding R70): one constructor for each row of spec/opcode_table.json, with the
operands and draws of that row, in the table's order. -/

namespace Sys2Proof

/-- One operation of the block with its operands and, for INJ and LOSE, its draws: a host transaction (R71) after its
op code has been read. -/
inductive Instr where
  /-- ENCN, op 000: encode nibble `n` (R90). -/
  | encn (n : Nibble)
  /-- ENC, op 001: encode a payload of any length (R91). -/
  | enc (payload : List Byte)
  /-- SYND, op 010: the syndrome of any 7-bit sequence (R100). -/
  | synd (c : Codeword)
  /-- DECW, op 011: correct and decode any 7-bit sequence (R101). -/
  | decw (c : Codeword)
  /-- DEC, op 100: decode a bit sequence of any length (R102). -/
  | dec (bits : Bits)
  /-- SLUT, op 101: look up the correction for a syndrome (R110). -/
  | slut (syn : Syndrome)
  /-- INJ, op 110: flip at most one bit; draws `fire` and `pos`, the latter used only when `fire` (R120). -/
  | inj (bits : Bits) (p : Prob) (fire : Bool) (pos : Nat)
  /-- LOSE, op 111: the frame-loss decision; draw `lose` (R130). -/
  | lose (q : Prob) (lost : Bool)
  deriving DecidableEq, Repr

end Sys2Proof
end

