-- ==== Sys2Proof/WellFormed.lean ====
section
/-! DEFINITION. Which transactions are inside the block's contract: the illegal operands of 30_encoding R73, "these and
only these" (DEC's lengths are legal operands answered by a fault, so they are no matter of form), and the draws that
are possible (43_bit_error_injector R121, 44_frame_loss_and_attempt R131). -/

namespace Sys2Proof

/-- The checks, one conjunct each: `p` and `q` are numbers in [0,1] (R127, R133); the draw `fire` or `lose` is one its
probability allows (R121, R131); `pos` is a position of the stream when `fire` is true, which an empty stream has none
of (R121, R126). -/
def Instr.wf : Instr → Bool
  | .encn _ => true
  | .enc _ => true
  | .synd _ => true
  | .decw _ => true
  | .dec _ => true
  | .slut _ => true
  | .inj bits p fire pos =>
    Machine.inUnitRange p && Machine.allowsDraw p fire && (!fire || decide (pos < bits.length))
  | .lose q lost => Machine.inUnitRange q && Machine.allowsDraw q lost

end Sys2Proof
end

