-- ==== Sys2Proof/Decode.lean ====
section
/-! DEFINITION. Decoding a host transaction (30_encoding R70, R71): total on every triple (op, operands, draws), rejecting
by name one whose operands or draws are not those of its operation. All eight op codes are assigned (R72), so no op code
is rejected. After it the encoder. -/

namespace Sys2Proof

/-- Why a triple is no transaction of the block. None of these is a behaviour of the block: R73 lists the illegal
operands of well-typed transactions. -/
inductive DecodeError where
  /-- The number or the kinds of the operands are not those of the operation's row (R70). -/
  | wrongOperands
  /-- The draws are not those of the operation's row (R70). -/
  | wrongDraws
  /-- A number wider than the operand: a nibble is 0..15 (R62), a syndrome 0..7 (R64). -/
  | numberTooWide
  /-- A codeword operand that is not seven bits long (R63). -/
  | notSevenBits
  deriving DecidableEq, Repr

open Machine (Value Draw Transaction codewordOfBits codewordBits)

/-- No draws, as every operation but INJ and LOSE takes (R70). -/
def withoutDraws (i : Instr) : List Draw → Except DecodeError Instr
  | [] => .ok i
  | _ => .error .wrongDraws

/-- ENCN: one nibble (R90). -/
def decodeEncn (draws : List Draw) : List Value → Except DecodeError Instr
  | [.num n] => if n < 16 then withoutDraws (.encn (BitVec.ofNat 4 n)) draws else .error .numberTooWide
  | _ => .error .wrongOperands

/-- ENC: a byte sequence (R91). -/
def decodeEnc (draws : List Draw) : List Value → Except DecodeError Instr
  | [.bytes x] => withoutDraws (.enc x) draws
  | _ => .error .wrongOperands

/-- SYND: a codeword (R100). -/
def decodeSynd (draws : List Draw) : List Value → Except DecodeError Instr
  | [.bits s] =>
    match codewordOfBits s with
    | some c => withoutDraws (.synd c) draws
    | none => .error .notSevenBits
  | _ => .error .wrongOperands

/-- DECW: a codeword (R101). -/
def decodeDecw (draws : List Draw) : List Value → Except DecodeError Instr
  | [.bits s] =>
    match codewordOfBits s with
    | some c => withoutDraws (.decw c) draws
    | none => .error .notSevenBits
  | _ => .error .wrongOperands

/-- DEC: a bit sequence of any length (R102). -/
def decodeDec (draws : List Draw) : List Value → Except DecodeError Instr
  | [.bits s] => withoutDraws (.dec s) draws
  | _ => .error .wrongOperands

/-- SLUT: a syndrome (R110). -/
def decodeSlut (draws : List Draw) : List Value → Except DecodeError Instr
  | [.num n] => if n < 8 then withoutDraws (.slut (BitVec.ofNat 3 n)) draws else .error .numberTooWide
  | _ => .error .wrongOperands

/-- INJ: a bit sequence and `p`; draws `fire` and `pos`, where `pos` may be left out when `fire` is false, since it is
"used only when fire is true" (R29, R75, R120). -/
def decodeInj (draws : List Draw) : List Value → Except DecodeError Instr
  | [.bits s, .prob p] =>
    match draws with
    | [.fire f, .pos n] => .ok (.inj s p f n)
    | [.fire false] => .ok (.inj s p false 0)
    | _ => .error .wrongDraws
  | _ => .error .wrongOperands

/-- LOSE: `q`; draw `lose` (R130). -/
def decodeLose (draws : List Draw) : List Value → Except DecodeError Instr
  | [.prob q] =>
    match draws with
    | [.lose b] => .ok (.lose q b)
    | _ => .error .wrongDraws
  | _ => .error .wrongOperands

/-- The operation select (R70): one arm for each of the eight values of `op`. -/
def decode (t : Transaction) : Except DecodeError Instr :=
  match (t.op.toFin : Fin 8) with
  | 0 => decodeEncn t.draws t.operands
  | 1 => decodeEnc t.draws t.operands
  | 2 => decodeSynd t.draws t.operands
  | 3 => decodeDecw t.draws t.operands
  | 4 => decodeDec t.draws t.operands
  | 5 => decodeSlut t.draws t.operands
  | 6 => decodeInj t.draws t.operands
  | 7 => decodeLose t.draws t.operands

/-- The op code of an operation (R70). -/
def opCode : Instr → OpCode
  | .encn _ => 0b000#3
  | .enc _ => 0b001#3
  | .synd _ => 0b010#3
  | .decw _ => 0b011#3
  | .dec _ => 0b100#3
  | .slut _ => 0b101#3
  | .inj _ _ _ _ => 0b110#3
  | .lose _ _ => 0b111#3

/-- The operand values of an operation, in the order of its row (R70). -/
def operandValues : Instr → List Value
  | .encn n => [.num n.toNat]
  | .enc x => [.bytes x]
  | .synd c => [.bits (codewordBits c)]
  | .decw c => [.bits (codewordBits c)]
  | .dec s => [.bits s]
  | .slut y => [.num y.toNat]
  | .inj s p _ _ => [.bits s, .prob p]
  | .lose q _ => [.prob q]

/-- The draws of an operation, in the order of its row (R70, R137). -/
def drawValues : Instr → List Draw
  | .encn _ => []
  | .enc _ => []
  | .synd _ => []
  | .decw _ => []
  | .dec _ => []
  | .slut _ => []
  | .inj _ _ f n => [.fire f, .pos n]
  | .lose _ b => [.lose b]

/-- "The encoding of a line is its `op` value followed by its operand values" (R75), and its draws (R71). -/
def encode (i : Instr) : Transaction := ⟨opCode i, operandValues i, drawValues i⟩

/-- The transaction a bare command word stands for: `op` is its low three bits (the table's mask is 7) and every operand
and draw, which have "no encoding inside a command word" (R71), is the zero of its format: number 0, seven zero bits, the
empty sequence, probability 0, draw 0. DESIGN CHOICE, log 2. -/
def wordTransaction (w : Nat) : Transaction :=
  let op : OpCode := BitVec.ofNat 3 w
  match (op.toFin : Fin 8) with
  | 0 => ⟨op, [.num 0], []⟩
  | 1 => ⟨op, [.bytes []], []⟩
  | 2 => ⟨op, [.bits (List.replicate 7 false)], []⟩
  | 3 => ⟨op, [.bits (List.replicate 7 false)], []⟩
  | 4 => ⟨op, [.bits []], []⟩
  | 5 => ⟨op, [.num 0], []⟩
  | 6 => ⟨op, [.bits [], .prob (.num 0)], [.fire false, .pos 0]⟩
  | 7 => ⟨op, [.prob (.num 0)], [.lose false]⟩

/-- What the decoder reads from a table word: `nbits` says how many bits the row has, `w` the bits; the format CMD has
three (R71), whatever `nbits` is. -/
def decodeTableWord (_nbits w : Nat) : Option Instr := (decode (wordTransaction w)).toOption

end Sys2Proof
end

