-- ==== Sys2Proof/Machine/State.lean ====
section
/-! DEFINITION. The state of the machine. The block has none: "the state component of the model's machine is the unit
type" (10_state R20). What the host holds on its side of the boundary (R32) and the order in which it issues operations
(R22) stand beside it, so that there is something to step; so do the reasons a step can stop. -/

namespace Sys2Proof.Machine

/-- The one fault a unit raises (R140, R141, R153). The machine does not stop with it: the operation completes with it
and the next state holds it as a completion (R146, R149), so no step answers `Host.Outcome.fault`. -/
inductive Fault where
  /-- Raised by DEC and by nothing else, when `len(bits) mod 14 ≠ 0`; it records nothing (R140, R141). Safe: it is the
  whole outcome the spec gives. -/
  | malformedStream
  deriving DecidableEq, Repr

/-- Why a line of the host's program is no transaction (R75). -/
inductive LineError where
  /-- An operand names nothing bound by an earlier line (R75). -/
  | unboundName
  /-- "A name is bound once" (R75). -/
  | nameAlreadyBound
  /-- The name is bound to a value that is no operand value, or that has no such part (R70). -/
  | noSuchValue
  deriving DecidableEq, Repr

/-- The reasons a step gives no meaning. -/
inductive Refusal where
  /-- An arm of `exec` that has no meaning yet; no arm is left so. Safe. -/
  | notModelled (mnemonic : String)
  /-- Raised by INJ and LOSE: `p` or `q` is not a number in [0,1], "outside the contract and the model refuses it"
  (R127, R133, R145). Safe. -/
  | probabilityOutOfRange
  /-- Raised by INJ: the empty stream with draw `fire` true, "outside the defined behaviour and the model refuses it"
  (R126, R145). Safe. -/
  | flipOfEmptyStream
  /-- Raised by INJ and LOSE: the draw is "not a possible draw" (R73, R121, R131), so this is no transaction the host
  may make (R150). Safe. Log 6. -/
  | impossibleDraw
  /-- Raised by fetching: the host's line is no transaction (R75). Safe. Log 9. -/
  | badLine (e : LineError)
  /-- Raised by fetching: the triple is no transaction of the block (R70, R71). Safe. Log 9. -/
  | badTransaction (e : DecodeError)
  deriving DecidableEq, Repr

/-- SLUT's result: `idx` and the equivalent `mask` (R66, R110). -/
structure Correction where
  idx  : Index
  mask : Codeword
  deriving DecidableEq, Repr

/-- DECW's result: the recovered nibble, the syndrome, the corrected codeword (R101). -/
structure Decoded where
  nib : Nibble
  syn : Syndrome
  cc  : Codeword
  deriving DecidableEq, Repr

/-- The data result of an operation that completed normally (R70, column "result"). -/
inductive Result where
  /-- ENCN's codeword. -/
  | codeword (c : Codeword)
  /-- ENC's or INJ's bit sequence. -/
  | stream (s : Bits)
  /-- SYND's syndrome. -/
  | syndrome (y : Syndrome)
  /-- DECW's triple. -/
  | decoded (d : Decoded)
  /-- DEC's byte sequence. -/
  | bytes (x : List Byte)
  /-- SLUT's pair. -/
  | correction (c : Correction)
  /-- LOSE's Boolean. -/
  | lost (b : Bool)
  deriving DecidableEq, Repr

/-- The completion of a transaction, the pair (status, result) (R71): status `OK` with the data result, or the fault's
status and no data (R140, R146). -/
inductive Completion where
  | ok (r : Result)
  | fault (f : Fault)
  deriving DecidableEq, Repr

/-- The names a request has bound, oldest first, each to the completion its line received (R32, R75). -/
abbrev Bindings := List (Name × Completion)

/-- One request of the host, "an independent unit of work" (R32, R52): the lines of its program still to be performed,
what it has bound, and the lines performed with their operands and draws, so that the payload bytes are still held after
ENC (R32) and "the draws it supplied" after INJ and LOSE (R120). -/
structure Request where
  program   : List Line
  bindings  : Bindings
  /-- Oldest first, one for each binding. -/
  performed : List Line
  deriving DecidableEq, Repr

/-- The block's architectural state: none (R20 to R33). -/
structure Block where
  deriving DecidableEq, Repr

/-- The machine: the block, and on the host's side of the boundary what drives it (log 1). -/
structure State where
  /-- The block, which keeps nothing (R20). -/
  block      : Block
  /-- The completion last delivered on the operation's interface (R23, R71); no operation reads it. -/
  completion : Option Completion
  /-- The requests the host holds, one set of values each (R32). -/
  requests   : List Request
  /-- The order in which the host issues operations (R22): the index of the request whose next line is performed, for
  each operation to be issued. -/
  issue      : List Nat
  deriving DecidableEq, Repr

/-- After reset: the block is "in its one and only condition" (R160); the host has issued nothing yet (log 1, 13). -/
def State.reset : State := ⟨⟨⟩, none, [], []⟩

end Sys2Proof.Machine
end

