-- ==== Sys2Proof/Machine/Flags.lean ====
section
/-! DEFINITION. What stands in place of flags: there are none (10_state R23); each completion carries a status "that lives
only as long as that result", and "a correction was made" is read from DECW's result (R101). -/

namespace Sys2Proof.Machine

/-- The statuses of the error taxonomy (R140). `UncorrectableCorruption` is none of them: it "has no code" and is never
signalled (R144). -/
inductive Status where
  | ok
  | malformedStream
  | frameLost
  | downstreamUnavailable
  deriving DecidableEq, Repr

/-- The numeric status codes (R140). -/
def Status.code : Status → Nat
  | .ok => 0
  | .malformedStream => 1
  | .frameLost => 2
  | .downstreamUnavailable => 3

/-- The status a fault reaches the host as (R140). -/
def Fault.status : Fault → Status
  | .malformedStream => .malformedStream

/-- The status of a completion (R71, R140). -/
def Completion.status : Completion → Status
  | .ok _ => .ok
  | .fault f => f.status

/-- Whether a completion is a fault, after which the request's program ends (R75, R146). -/
def Completion.isFault : Completion → Bool
  | .ok _ => false
  | .fault _ => true

/-- "An error was corrected" is `syn != 0` (R23, R101). -/
def Decoded.corrected (d : Decoded) : Bool := d.syn != 0#3

end Sys2Proof.Machine
end

