-- ==== Sys2Proof/Machine/Ops.lean ====
section
/-! DEFINITION. The shared operations: completing an operation, taking a fault, and the host's side of a step: finding the
next line, resolving its operands, decoding it, receiving its completion (30_encoding R71, R75, 60_exceptions R146). -/

namespace Sys2Proof.Machine

/-! ### Completion and fault delivery -/

/-- Normal completion: the data result, status `OK`, on the operation's interface; nothing else changes, because "there
is nothing else to change" (R49, R71). -/
def deliver (r : Result) (s : State) : Host.Outcome State Fault Refusal :=
  .next { s with completion := some (.ok r) }

/-- Fault delivery, "what stands for trap entry" (R146): "the operation completes with the fault's status and no data;
nothing is saved", no mode changes, no handler runs. There is no return from it (R149). Log 5. -/
def takeFault (f : Fault) (s : State) : Host.Outcome State Fault Refusal :=
  .next { s with completion := some (.fault f) }

/-! ### What the host holds (R32, R75) -/

/-- The completion a name is bound to. -/
def lookupName (b : Bindings) (n : Name) : Option Completion :=
  match b with
  | [] => none
  | (m, c) :: rest => if m = n then some c else lookupName rest n

/-- A result used whole as an operand value of a later line (R51, R75): a codeword is a bit sequence of seven bits
(R63). DECW's triple, SLUT's pair and LOSE's Boolean are the operand of no operation (R70). -/
def Result.value : Result → Option Value
  | .codeword c => some (.bits (codewordBits c))
  | .stream s => some (.bits s)
  | .syndrome y => some (.num y.toNat)
  | .bytes x => some (.bytes x)
  | .decoded _ => none
  | .correction _ => none
  | .lost _ => none

/-- One part of DECW's triple or SLUT's pair as an operand value (R101, R110). Log 8. -/
def Result.part : Result → ResultPart → Option Value
  | .decoded d, .nib => some (.num d.nib.toNat)
  | .decoded d, .syn => some (.num d.syn.toNat)
  | .decoded d, .cc => some (.bits (codewordBits d.cc))
  | .correction c, .idx => some (.num c.idx.toNat)
  | .correction c, .mask => some (.bits (codewordBits c.mask))
  | _, _ => none

/-- A value found, or the reason there is none. -/
def foundValue : Option Value → Except LineError Value
  | some v => .ok v
  | none => .error .noSuchValue

/-- An operand of a line, its name replaced by the value the host holds under it (R75). -/
def resolveArg (b : Bindings) : Arg → Except LineError Value
  | .lit v => .ok v
  | .ref n =>
    match lookupName b n with
    | some (.ok r) => foundValue r.value
    | some (.fault _) => .error .noSuchValue
    | none => .error .unboundName
  | .part n f =>
    match lookupName b n with
    | some (.ok r) => foundValue (r.part f)
    | some (.fault _) => .error .noSuchValue
    | none => .error .unboundName

/-- The operands of a line, in order. -/
def resolveArgs (b : Bindings) : List Arg → Except LineError (List Value)
  | [] => .ok []
  | a :: rest =>
    match resolveArg b a with
    | .error e => .error e
    | .ok v =>
      match resolveArgs b rest with
      | .error e => .error e
      | .ok vs => .ok (v :: vs)

/-- The transaction a line makes, given what its request has bound; its name must be new: "A name is bound once"
(R75). -/
def transactionOf (l : Line) (b : Bindings) : Except LineError Transaction :=
  match lookupName b l.name with
  | some _ => .error .nameAlreadyBound
  | none =>
    match resolveArgs b l.args with
    | .error e => .error e
    | .ok vs => .ok ⟨l.op, vs, l.draws⟩

/-- The payload bytes among the operands of these lines: the first byte sequence given to ENC (R32, R134). -/
def payloadOf (b : Bindings) : List Line → Option (List Byte)
  | [] => none
  | l :: ls =>
    if l.op = 0b001#3 then
      match resolveArgs b l.args with
      | .ok [.bytes x] => some x
      | _ => payloadOf b ls
    else payloadOf b ls

/-- The payload bytes a request holds, from when the host takes it up (R32): the lines performed are kept and the others
are still to come. -/
def Request.payload (q : Request) : Option (List Byte) := payloadOf q.bindings (q.performed ++ q.program)

/-! ### The next operation -/

/-- What the host's issue order and program give a step to do. -/
inductive Fetch where
  /-- The host issues nothing. -/
  | idle
  /-- The request issued next has no line left (or is none): nothing is performed for it. -/
  | over
  /-- The line is no transaction of the block. -/
  | bad (r : Refusal)
  /-- Request `k` has operation `i` performed for its line `n = ...`. -/
  | run (k : Nat) (n : Name) (i : Instr)
  deriving DecidableEq, Repr

/-- The next line of request `k`: "executed top to bottom by the host" (R75). -/
def fetchLine (k : Nat) (q : Request) : Fetch :=
  match q.program with
  | [] => .over
  | l :: _ =>
    match transactionOf l q.bindings with
    | .error e => .bad (.badLine e)
    | .ok t =>
      match decode t with
      | .error e => .bad (.badTransaction e)
      | .ok i => .run k l.name i

/-- "Program order means the order in which the host issues operations" (R22): the head of the issue order. -/
def fetch (s : State) : Fetch :=
  match s.issue with
  | [] => .idle
  | k :: _ =>
    match s.requests[k]? with
    | none => .over
    | some q => fetchLine k q

/-- Nothing is performed for the request issued next (R146: "the lines after the faulting line are not performed"). -/
def passOver (s : State) : State := { s with issue := s.issue.tail }

/-- A request receives the completion of its next line under the line's name and keeps the line (R32); a fault "binds its
name to the fault and ends the program" (R75, R146). Nothing held is ever discarded: the spec does not fix when the host
discards a value (R28, R32, R136). DESIGN CHOICE, log 23. -/
def Request.receive (q : Request) (n : Name) (c : Completion) : Request :=
  { program := if c.isFault then [] else q.program.tail, bindings := q.bindings ++ [(n, c)],
    performed := q.performed ++ q.program.take 1 }

/-- Request `k` receives the completion that stands on the interface; every other request is as it was (R52). -/
def receive (k : Nat) (n : Name) (s : State) : State :=
  match s.completion, s.requests[k]? with
  | some c, some q => { s with requests := s.requests.set k (q.receive n c), issue := s.issue.tail }
  | _, _ => { s with issue := s.issue.tail }

/-! ### Placing one operation -/

/-- A request whose program is one transaction with literal operands. -/
def oneLine (n : Name) (t : Transaction) : Request := ⟨[⟨n, t.op, t.operands.map Arg.lit, t.draws⟩], [], []⟩

/-- The host takes up one more request and issues its first operation next; everything else is kept. -/
def issueFirst (q : Request) (s : State) : State :=
  { s with requests := s.requests ++ [q], issue := s.requests.length :: s.issue }

end Sys2Proof.Machine
end

