-- ==== Sys2Proof/Machine/Table.lean ====
section
/-! DEFINITION. Unit syndrome_lookup_table (42_syndrome_lut): SLUT. The table is a constant, "a total function on 3-bit
values" (10_state R27), written as a finite mapping (R113). -/

namespace Sys2Proof.Machine

/-- `idx = [0, 3, 2, 5, 1, 7, 4, 6][syn]` (R110), one line for each of the eight entries. -/
def slutIndex (syn : Syndrome) : Index :=
  match (syn.toFin : Fin 8) with
  | 0 => 0#3
  | 1 => 3#3
  | 2 => 2#3
  | 3 => 5#3
  | 4 => 1#3
  | 5 => 7#3
  | 6 => 4#3
  | 7 => 6#3

/-- The mask of an index: all zero for 0, otherwise a single 1 at position `idx - 1` (R66). -/
def indexMask (idx : Index) : Codeword := if idx = 0#3 then 0#7 else unitMask (idx.toNat - 1)

/-- `SLUT(syn)` (R110). -/
def slut (syn : Syndrome) : Correction := ⟨slutIndex syn, indexMask (slutIndex syn)⟩

/-- SLUT: all eight inputs are defined (R110). -/
def execSlut (syn : Syndrome) (s : State) : Host.Outcome State Fault Refusal := deliver (.correction (slut syn)) s

end Sys2Proof.Machine
end

