-- ==== Sys2Proof/Machine/Decoder.lean ====
section
/-! DEFINITION. Unit hamming_7_4_decoder (41_decoder): SYND, DECW and DEC. -/

namespace Sys2Proof.Machine

/-- `SYND(c)`: `s0 = c6 ⊕ c5 ⊕ c4 ⊕ c2`, `s1 = c5 ⊕ c4 ⊕ c3 ⊕ c1`, `s2 = c6 ⊕ c5 ⊕ c3 ⊕ c0` (R100). -/
def synd (c : Codeword) : Syndrome :=
  let s0 := posBit c 6 ^^ posBit c 5 ^^ posBit c 4 ^^ posBit c 2
  let s1 := posBit c 5 ^^ posBit c 4 ^^ posBit c 3 ^^ posBit c 1
  let s2 := posBit c 6 ^^ posBit c 5 ^^ posBit c 3 ^^ posBit c 0
  packSyndrome s2 s1 s0

/-- "Extract bits at positions 3-6 as the recovered nibble; discard parity bits" (R68). -/
def dataNibble (c : Codeword) : Nibble := packNibble (posBit c 3) (posBit c 4) (posBit c 5) (posBit c 6)

/-- `DECW(c)`: look the syndrome up, apply the mask, take the nibble (R101). Total: it never refuses a sequence. -/
def decw (c : Codeword) : Decoded :=
  let syn := synd c
  let cc := c ^^^ (slut syn).mask
  ⟨dataNibble cc, syn, cc⟩

/-- The nibbles of a stream's codewords, in order (R102). -/
def nibblesOf (bits : Bits) : List Nibble := (codewordsOf bits).map fun c => (decw c).nib

/-- `DEC(bits)` with its two checks in the document's order (R102): the length, then the nibble count. -/
def dec (bits : Bits) : Except Fault (List Byte) :=
  if bits.length % 7 ≠ 0 then .error .malformedStream
  else if (nibblesOf bits).length % 2 ≠ 0 then .error .malformedStream
  else .ok (regroup (nibblesOf bits))

/-- SYND: any of the 128 values (R100). -/
def execSynd (c : Codeword) (s : State) : Host.Outcome State Fault Refusal := deliver (.syndrome (synd c)) s

/-- DECW: any of the 128 values (R101). -/
def execDecw (c : Codeword) (s : State) : Host.Outcome State Fault Refusal := deliver (.decoded (decw c)) s

/-- DEC: bytes, or the fault and no bytes (R102, R146). -/
def execDec (bits : Bits) (s : State) : Host.Outcome State Fault Refusal :=
  match dec bits with
  | .ok x => deliver (.bytes x) s
  | .error f => takeFault f s

end Sys2Proof.Machine
end

