-- ==== Sys2Proof/Machine/Encoder.lean ====
section
/-! DEFINITION. Unit hamming_7_4_encoder (40_encoder): ENCN and ENC. -/

namespace Sys2Proof.Machine

/-- `ENCN(n)`: `p1 = b0 ⊕ b1 ⊕ b3`, `p2 = b1 ⊕ b2 ⊕ b3`, `p3 = b0 ⊕ b1 ⊕ b2`, then `b3, b2, b1, b0` (R90). -/
def encn (n : Nibble) : Codeword :=
  let b0 := nibbleBit n 0
  let b1 := nibbleBit n 1
  let b2 := nibbleBit n 2
  let b3 := nibbleBit n 3
  packCodeword (b0 ^^ b1 ^^ b3) (b1 ^^ b2 ^^ b3) (b0 ^^ b1 ^^ b2) b3 b2 b1 b0

/-- `ENC(payload)`: each byte's high nibble first (R91). -/
def enc : List Byte → Bits
  | [] => []
  | B :: rest => codewordBits (encn (highNibble B)) ++ codewordBits (encn (lowNibble B)) ++ enc rest

/-- ENCN: status always `OK` (R90). -/
def execEncn (n : Nibble) (s : State) : Host.Outcome State Fault Refusal := deliver (.codeword (encn n)) s

/-- ENC: status always `OK`; no size is checked (R91). -/
def execEnc (payload : List Byte) (s : State) : Host.Outcome State Fault Refusal := deliver (.stream (enc payload)) s

end Sys2Proof.Machine
end

