-- ==== Sys2Proof/Machine/Injector.lean ====
section
/-! DEFINITION. Unit bit_error_injector (43_bit_error_injector): INJ. -/

namespace Sys2Proof.Machine

/-- `INJ` for draws that are possible: the stream unchanged, or `flip(bits, pos)` (R120). -/
def inj (bits : Bits) (fire : Bool) (pos : Nat) : Bits := if fire then flipAt bits pos else bits

/-- When INJ has no meaning, the first reason that applies: `p` outside its range (R127); a flip of the empty stream
(R126); a draw that is not possible (R73, R121). The order is log 14's. -/
def injRefusal (bits : Bits) (p : Prob) (fire : Bool) (pos : Nat) : Option Refusal :=
  if inUnitRange p = false then some .probabilityOutOfRange
  else if fire && bits.isEmpty then some .flipOfEmptyStream
  else if allowsDraw p fire = false then some .impossibleDraw
  else if fire && decide (bits.length ≤ pos) then some .impossibleDraw
  else none

/-- INJ: any length is accepted (R125); status always `OK`, and the host is not told whether a bit was flipped
(R120). -/
def execInj (bits : Bits) (p : Prob) (fire : Bool) (pos : Nat) (s : State) : Host.Outcome State Fault Refusal :=
  match injRefusal bits p fire pos with
  | some r => .refused r
  | none => deliver (.stream (inj bits fire pos)) s

/-- "As a relation between operand and result, with no mention of draws" (R121). -/
def injPossible (bits : Bits) (p : Rat) (out : Bits) : Prop :=
  (p < 1 ∧ out = bits) ∨ (0 < p ∧ ∃ pos, pos < bits.length ∧ out = flipAt bits pos)

end Sys2Proof.Machine
end

