-- ==== Sys2Proof/Machine/Loss.lean ====
section
/-! DEFINITION. The frame-loss decision (44_frame_loss_and_attempt): LOSE. -/

namespace Sys2Proof.Machine

/-- When LOSE has no meaning: `q` outside its range (R133), or a draw that is not possible (R131). -/
def loseRefusal (q : Prob) (lost : Bool) : Option Refusal :=
  if inUnitRange q = false then some .probabilityOutOfRange
  else if allowsDraw q lost = false then some .impossibleDraw
  else none

/-- LOSE answers the draw (R130). It "itself only answers": the attempt sequence makes `FrameLost` of it (R142). -/
def execLose (q : Prob) (lost : Bool) (s : State) : Host.Outcome State Fault Refusal :=
  match loseRefusal q lost with
  | some r => .refused r
  | none => deliver (.lost lost) s

/-- `LOSE_possible(q, r)` (R131). -/
def losePossible (q : Rat) (r : Bool) : Prop := (q < 1 ∧ r = false) ∨ (0 < q ∧ r = true)

end Sys2Proof.Machine
end

