-- ==== Sys2Proof/Machine/Dispatch.lean ====
section
/-! DEFINITION. One arm per operation, in the table's order (30_encoding R70). -/

namespace Sys2Proof.Machine

def exec (i : Instr) (s : State) : Host.Outcome State Fault Refusal :=
  match i with
  | .encn n => Sys2Proof.Machine.execEncn n s
  | .enc payload => Sys2Proof.Machine.execEnc payload s
  | .synd c => Sys2Proof.Machine.execSynd c s
  | .decw c => Sys2Proof.Machine.execDecw c s
  | .dec bits => Sys2Proof.Machine.execDec bits s
  | .slut syn => Sys2Proof.Machine.execSlut syn s
  | .inj bits p fire pos => Sys2Proof.Machine.execInj bits p fire pos s
  | .lose q lost => Sys2Proof.Machine.execLose q lost s

end Sys2Proof.Machine
end

