-- ==== Sys2Proof/Machine/Step.lean ====
section
/-! DEFINITION. One step: the host issues one operation, the block performs it whole (20_memory R49), and the request that
issued it receives the completion (30_encoding R71, R75). -/

namespace Sys2Proof.Machine

/-- One step. With nothing issued the machine is as it was: the block is "ready to perform any operation" (R160). -/
def step (s : State) : Host.Outcome State Fault Refusal :=
  match fetch s with
  | .idle => .next s
  | .over => .next (passOver s)
  | .bad r => .refused r
  | .run k n i =>
    match exec i s with
    | .next t => .next (receive k n t)
    | .fault f => .fault f
    | .refused r => .refused r

/-- `s` with the operation that a table word stands for issued next: the host takes up one more request whose program is
the one line `x = OP(...)` and issues it first. The block fetches nothing (R22, R54), so this stands for the host's
choice of its next operation. Log 2, 3. -/
def State.withFetchWord (s : State) (_nbits w : Nat) : State := issueFirst (oneLine ['x'] (wordTransaction w)) s

end Sys2Proof.Machine
end

