-- ==== Sys2Proof/Config.lean ====
section
/-! DEFINITION. What is fixed for the hardware (00_scope R9) and the configuration the host owns (10_state R24).
The values the spec leaves to chance are operands of the transaction that uses them (R29), so every statement quantifies
over them; the one free value is of a port, not of an operation. -/

namespace Sys2Proof.Config

/-- Data bits per codeword, K (R9). -/
def dataBits : Nat := 4

/-- Parity bits per codeword, and syndrome bits (R9). -/
def parityBits : Nat := 3

/-- Codeword bits, N (R9). -/
def codewordBits : Nat := 7

/-- Codewords per payload byte (R9). -/
def codewordsPerByte : Nat := 2

/-- Encoded bits per payload byte (R9). -/
def bitsPerByte : Nat := 14

/-- Entries of the syndrome table (R9). -/
def tableEntries : Nat := 8

/-- What the port `bits_o` carries at a position when `fire_i` is 1 and `pos_i` is no position of `bits_i`, an empty
`bits_i` included: the port table is silent (30_encoding R78) and INJ has no meaning there (43_bit_error_injector R126).
Free value, log 21. -/
opaque openPortBit : Bits → Nat → Nat → Bit

/-- The configuration record `CFG = (P_ERR, Q_LOSS)` "that the host owns and passes by value" (R24): `pErr` is operand
`p` of every INJ and `qLoss` operand `q` of every LOSE of an attempt. `MAX_PAYLOAD_BYTES` is "not visible to the block
at all" and has no field. -/
structure Cfg where
  pErr  : Prob
  qLoss : Prob
  deriving DecidableEq, Repr

end Sys2Proof.Config
end

