-- ==== Sys2Proof/Machine/Attempt.lean ====
section
/-! DEFINITION. The transmission attempt (44_frame_loss_and_attempt R134 to R137): the pseudo-operation ATTEMPT (30_encoding
R76) as the host's four lines, its outcome, and the Impairment Outcome. -/

namespace Sys2Proof.Machine

/-- The draws of one attempt (R134). -/
structure AttemptDraws where
  fire : Bool
  pos  : Nat
  lose : Bool
  deriving DecidableEq, Repr

/-- The outcome of an attempt, with "two constructors, `Delivered(bytes)` and `FrameLost`" (R153). -/
inductive AttemptOutcome where
  | delivered (y : List Byte)
  | frameLost
  deriving DecidableEq, Repr

/-- The "per-transmission-attempt classification" (R136). -/
inductive Impairment where
  | deliveredClean
  | deliveredCorrected
  | frameLost
  deriving DecidableEq, Repr

/-- `s = ENC(payload)` (R76). -/
def encLine (x : List Byte) : Line := ⟨['s'], 0b001#3, [.lit (.bytes x)], []⟩

/-- INJ's draws as the host writes them: "`fire`, then `pos` (only if `fire`)" (R137). -/
def injDrawList (fire : Bool) (pos : Nat) : List Draw := if fire then [.fire true, .pos pos] else [.fire false]

/-- `t = INJ(s, p ; fire, pos)` (R76), with `p` the configuration's (R24). -/
def injLine (c : Config.Cfg) (d : AttemptDraws) : Line :=
  ⟨['t'], 0b110#3, [.ref ['s'], .lit (.prob c.pErr)], injDrawList d.fire d.pos⟩

/-- `y = DEC(t)` (R76). -/
def decLine : Line := ⟨['y'], 0b100#3, [.ref ['t']], []⟩

/-- `l = LOSE(q ; lose)` (R76), with `q` the configuration's (R24). -/
def loseLine (c : Config.Cfg) (d : AttemptDraws) : Line :=
  ⟨['l'], 0b111#3, [.lit (.prob c.qLoss)], [.lose d.lose]⟩

/-- The four lines of an attempt in the order the spec keeps, ENC, INJ, DEC, LOSE (R76, R134). -/
def attemptProgram (x : List Byte) (c : Config.Cfg) (d : AttemptDraws) : List Line :=
  [encLine x, injLine c d, decLine, loseLine c d]

/-- The same attempt "with the loss test ahead of the decode", which a host may use (R134, 90_conflicts C4): a lost frame
is not decoded at all. -/
def attemptLossFirst (x : List Byte) (c : Config.Cfg) (d : AttemptDraws) : List Line :=
  [encLine x, injLine c d, loseLine c d] ++ (if d.lose then [] else [decLine])

/-- The request of one attempt. -/
def attemptRequest (x : List Byte) (c : Config.Cfg) (d : AttemptDraws) : Request := ⟨attemptProgram x c d, [], []⟩

/-- The request of one attempt with the loss decision taken first. -/
def lossFirstRequest (x : List Byte) (c : Config.Cfg) (d : AttemptDraws) : Request :=
  ⟨attemptLossFirst x c d, [], []⟩

/-- "`FrameLost` if `l` is true, otherwise `y`" (R76, R134), read from what the host holds; none while the attempt has
not come to an outcome. -/
def attemptOutcome (b : Bindings) : Option AttemptOutcome :=
  match lookupName b ['l'] with
  | some (.ok (.lost true)) => some .frameLost
  | some (.ok (.lost false)) =>
    match lookupName b ['y'] with
    | some (.ok (.bytes y)) => some (.delivered y)
    | _ => none
  | _ => none

/-- The status an attempt's outcome has (R140, R142). -/
def AttemptOutcome.status : AttemptOutcome → Status
  | .delivered _ => .ok
  | .frameLost => .frameLost

/-- The Impairment Outcome "in terms of the draws of the attempt" (R136). -/
def AttemptDraws.impairment (d : AttemptDraws) : Impairment :=
  if d.lose then .frameLost else if d.fire then .deliveredCorrected else .deliveredClean

/-- The draws of an attempt in the order they are taken: "`fire`, then `pos` (only if `fire`), then `lose`" (R137). -/
def AttemptDraws.inOrder (d : AttemptDraws) : List Draw :=
  if d.fire then [.fire true, .pos d.pos, .lose d.lose] else [.fire false, .lose d.lose]

/-- Draws that can occur for `p`, `q` and a stream of `L` bits (R121, R131). -/
def AttemptDraws.possible (d : AttemptDraws) (p q : Rat) (L : Nat) : Bool :=
  allowsDraw (.num p) d.fire && (!d.fire || decide (d.pos < L)) && allowsDraw (.num q) d.lose

end Sys2Proof.Machine
end

