-- ==== Sys2Proof/Machine/Chance.lean ====
section
/-! DEFINITION. The laws of the draws (43_bit_error_injector R122, 44_frame_loss_and_attempt R131, R132): finite
distributions as lists of a value and its exact rational probability, of one operation, of one attempt, and of a run of
any number of operations. No operation uses them: an operation is a function of its operands and draws (20_memory R49).
Log 15. -/

namespace Sys2Proof.Machine

/-- A finite distribution: values with their probabilities; a value may be listed more than once. -/
abbrev FinDist (α : Type) := List (α × Rat)

/-- The probability of an event. -/
def FinDist.prob {α : Type} (d : FinDist α) (event : α → Bool) : Rat :=
  ((d.filter fun v => event v.1).map fun v => v.2).sum

/-- Two independent draws: the probability of a pair is the product (R132). -/
def FinDist.both {α β : Type} (d : FinDist α) (e : FinDist β) : FinDist (α × β) :=
  d.flatMap fun v => e.map fun w => ((v.1, w.1), v.2 * w.2)

/-- The draws `(fire, pos)` of one INJ on a stream of `L` bits: "`fire` is true with probability exactly `p`. Given
`fire`, `pos` is uniform: each of the `L` positions has probability `1/L`" (R122). Whether a position is drawn when `fire`
is false is left open (91_not_in_source N4): that draw is listed once, with `pos` 0. DESIGN CHOICE, log 24. The empty stream has no position to
choose and the spec gives INJ no meaning there when `fire` is true (R126, R135); the law keeps `fire` at probability `p`
and lists it with `pos` 0, which is no position of that stream. DESIGN CHOICE, log 22. -/
def injLaw (p : Rat) (L : Nat) : FinDist (Bool × Nat) :=
  ((false, 0), 1 - p) ::
    (if L = 0 then [((true, 0), p)] else (List.range L).map fun i => ((true, i), p / L))

/-- The draw of one LOSE: "`lose` is true with probability exactly `q`" (R131). -/
def loseLaw (q : Rat) : FinDist Bool := [(true, q), (false, 1 - q)]

/-- The draws of one attempt on a stream of `L` bits, `lose` independent of `fire` and `pos` (R132). -/
def attemptLaw (p q : Rat) (L : Nat) : FinDist AttemptDraws :=
  (FinDist.both (injLaw p L) (loseLaw q)).map fun v => (⟨v.1.1.1, v.1.1.2, v.1.2⟩, v.2)

/-! ### A run of operations -/

/-- An operation that takes draws, with what its law depends on: "independent ... of the operand's contents" (R122), so of
an INJ only `p` and the length of its stream, and of a LOSE only `q`. -/
inductive DrawingOp where
  | inj (p : Rat) (L : Nat)
  | lose (q : Rat)
  deriving DecidableEq, Repr

/-- What one such operation draws. -/
inductive OpDraw where
  | inj (fire : Bool) (pos : Nat)
  | lose (b : Bool)
  deriving DecidableEq, Repr

/-- The law of the draws of one operation. -/
def DrawingOp.law : DrawingOp → FinDist OpDraw
  | .inj p L => (injLaw p L).map fun v => (.inj v.1.1 v.1.2, v.2)
  | .lose q => (loseLaw q).map fun v => (.lose v.1, v.2)

/-- How the host goes on: the next operation that draws, of whatever request or attempt, given everything drawn before in
the order of issue; none when the run is over. Everything else that happened before is a function of those draws. -/
abbrev HostPolicy := List OpDraw → Option DrawingOp

/-- The law of a run of at most `m` operations that draw, after the draws `h`: each takes its own draws by its own law,
whatever was drawn before, "no memory of prior outcomes" (R122, R132, 70_reset_and_hazards R167). -/
def runLaw (host : HostPolicy) : Nat → List OpDraw → FinDist (List OpDraw)
  | 0, h => [(h, 1)]
  | m + 1, h =>
    match host h with
    | none => [(h, 1)]
    | some o => o.law.flatMap fun v => (runLaw host m (h ++ [v.1])).map fun w => (w.1, v.2 * w.2)

/-- The host that has these operations draw, one after the other. -/
def inSequence (os : List DrawingOp) : HostPolicy := fun h => os[h.length]?

/-- Whether the draws of a run are, one by one, in these events. -/
def allIn : List (OpDraw → Bool) → List OpDraw → Bool
  | [], [] => true
  | e :: es, d :: ds => e d && allIn es ds
  | _, _ => false

end Sys2Proof.Machine
end

