-- ==== Sys2Proof/Machine/HostText.lean ====
section
/-! DEFINITION. Reading a line of the host notation as text (30_encoding R75): `name = OP(operands)` or
`name = OP(operands ; draws)`. Blanks carry no meaning and are dropped first (log 17). -/

namespace Sys2Proof.Machine

/-- The characters before and after the first `c`; none when there is no `c`. -/
def splitOnce (c : Char) : List Char → Option (List Char × List Char)
  | [] => none
  | x :: rest =>
    if x = c then some ([], rest)
    else match splitOnce c rest with
      | some (a, b) => some (x :: a, b)
      | none => none

/-- The fields between the separators `c`; the empty text has one empty field. -/
def splitFields (c : Char) : List Char → List (List Char)
  | [] => [[]]
  | x :: rest =>
    if x = c then [] :: splitFields c rest
    else match splitFields c rest with
      | [] => [[x]]
      | f :: fs => (x :: f) :: fs

/-- The value of one hexadecimal digit: how many digits stand before it in order, in either spelling. -/
def hexDigit (c : Char) : Option Nat :=
  match splitOnce c "0123456789ABCDEF".toList, splitOnce c "0123456789abcdef".toList with
  | some (before, _), _ => some before.length
  | none, some (before, _) => some before.length
  | none, none => none

/-- Digits of a base, the value so far carried along. -/
def readDigits (base : Nat) (acc : Nat) : List Char → Option Nat
  | [] => some acc
  | c :: rest =>
    match hexDigit c with
    | some d => if d < base then readDigits base (base * acc + d) rest else none
    | none => none

/-- "A decimal or `0x` number". -/
def readNum : List Char → Option Nat
  | [] => none
  | '0' :: 'x' :: c :: rest => readDigits 16 0 (c :: rest)
  | c :: rest => readDigits 10 0 (c :: rest)

/-- Pairs of hexadecimal digits up to the closing bracket. -/
def readByteList : List Char → Option (List Byte)
  | [']'] => some []
  | a :: b :: rest =>
    match hexDigit a, hexDigit b, readByteList rest with
    | some x, some y, some bs => some (BitVec.ofNat 8 (16 * x + y) :: bs)
    | _, _, _ => none
  | _ => none

/-- A byte sequence: "hexadecimal bytes in brackets". -/
def readBytes : List Char → Option (List Byte)
  | '[' :: rest => readByteList rest
  | _ => none

/-- The digits of a bit sequence. -/
def readBitDigits : List Char → Option Bits
  | [] => some []
  | c :: rest =>
    match readBitDigits rest with
    | some s => if c = '0' then some (false :: s) else if c = '1' then some (true :: s) else none
    | none => none

/-- A bit sequence: "a string of digits ... or `<>` when empty". -/
def readBits : List Char → Option Bits
  | [] => none
  | ['<', '>'] => some []
  | c :: rest => readBitDigits (c :: rest)

/-- One or more decimal digits. -/
def readDecimal : List Char → Option Nat
  | [] => none
  | c :: rest => readDigits 10 0 (c :: rest)

/-- A decimal fraction without sign: digits, and after a point the digits of the fraction. -/
def readFraction (t : List Char) : Option Rat :=
  match splitOnce '.' t with
  | none => (readDecimal t).map fun n => mkRat n 1
  | some (a, b) =>
    match readDecimal a, readDecimal b with
    | some n, some m => some (mkRat (n * 10 ^ b.length + m) (10 ^ b.length))
    | _, _ => none

/-- "A probability as a decimal fraction", a leading minus allowed so that an operand outside [0,1] can be written. -/
def readProb : List Char → Option Prob
  | '-' :: rest => (readFraction rest).map fun x => .num (-x)
  | t => (readFraction t).map .num

/-- The kinds of literal an operand position takes. -/
inductive Kind where
  | num
  | bytes
  | bits
  | prob
  deriving DecidableEq, Repr

/-- A literal of the kind its position takes. -/
def readLiteral : Kind → List Char → Option Value
  | .num, t => (readNum t).map .num
  | .bytes, t => (readBytes t).map .bytes
  | .bits, t => (readBits t).map .bits
  | .prob, t => (readProb t).map .prob

/-- Whether a character can begin a name. -/
def isLetter (c : Char) : Bool := decide ('a' ≤ c ∧ c ≤ 'z') || decide ('A' ≤ c ∧ c ≤ 'Z')

/-- The parts of a triple or pair, by the names the rules give them (R101, R110). -/
def partOfName (t : List Char) : Option ResultPart :=
  if t = ['n', 'i', 'b'] then some .nib
  else if t = ['s', 'y', 'n'] then some .syn
  else if t = ['c', 'c'] then some .cc
  else if t = ['i', 'd', 'x'] then some .idx
  else if t = ['m', 'a', 's', 'k'] then some .mask
  else none

/-- An operand: a name begins with a letter, anything else is a literal. -/
def readArg (k : Kind) : List Char → Option Arg
  | [] => none
  | c :: rest =>
    if isLetter c then
      match splitOnce '.' (c :: rest) with
      | none => some (.ref (c :: rest))
      | some (n, f) => (partOfName f).map (.part n)
    else (readLiteral k (c :: rest)).map .lit

/-- The operands, one for each kind, no more and no fewer. -/
def readArgs : List Kind → List (List Char) → Option (List Arg)
  | [], [] => some []
  | k :: ks, t :: ts =>
    match readArg k t, readArgs ks ts with
    | some a, some as => some (a :: as)
    | _, _ => none
  | _, _ => none

/-- A Boolean draw's value. -/
def readFlag : List Char → Option Bool
  | ['0'] => some false
  | ['1'] => some true
  | _ => none

/-- One draw: `fire=0|1`, `pos=<number>`, `lose=0|1`. -/
def readDraw (t : List Char) : Option Draw :=
  match splitOnce '=' t with
  | none => none
  | some (k, v) =>
    if k = ['f', 'i', 'r', 'e'] then (readFlag v).map .fire
    else if k = ['p', 'o', 's'] then (readNum v).map .pos
    else if k = ['l', 'o', 's', 'e'] then (readFlag v).map .lose
    else none

/-- The draws, in order. -/
def readDraws : List (List Char) → Option (List Draw)
  | [] => some []
  | t :: ts =>
    match readDraw t, readDraws ts with
    | some d, some ds => some (d :: ds)
    | _, _ => none

/-- The op code and the operand kinds of a mnemonic (R70). -/
def opOfName (t : List Char) : Option (OpCode × List Kind) :=
  if t = ['E', 'N', 'C', 'N'] then some (0b000#3, [.num])
  else if t = ['E', 'N', 'C'] then some (0b001#3, [.bytes])
  else if t = ['S', 'Y', 'N', 'D'] then some (0b010#3, [.bits])
  else if t = ['D', 'E', 'C', 'W'] then some (0b011#3, [.bits])
  else if t = ['D', 'E', 'C'] then some (0b100#3, [.bits])
  else if t = ['S', 'L', 'U', 'T'] then some (0b101#3, [.num])
  else if t = ['I', 'N', 'J'] then some (0b110#3, [.bits, .prob])
  else if t = ['L', 'O', 'S', 'E'] then some (0b111#3, [.prob])
  else none

/-- The operand text up to the closing parenthesis, which ends the line. -/
def beforeClose (t : List Char) : Option (List Char) :=
  match splitOnce ')' t with
  | some (a, []) => some a
  | _ => none

/-- Operands and draws between the parentheses. -/
def readInside (op : OpCode) (ks : List Kind) (name : Name) (t : List Char) : Option Line :=
  match splitOnce ';' t with
  | none => (readArgs ks (splitFields ',' t)).map fun as => ⟨name, op, as, []⟩
  | some (a, d) =>
    match readArgs ks (splitFields ',' a), readDraws (splitFields ',' d) with
    | some as, some ds => some ⟨name, op, as, ds⟩
    | _, _ => none

/-- A line without blanks. -/
def readTight (t : List Char) : Option Line :=
  match splitOnce '=' t with
  | none => none
  | some (name, rest) =>
    match splitOnce '(' rest with
    | none => none
    | some (m, inside) =>
      match opOfName m, beforeClose inside with
      | some (op, ks), some a => if name.all isLetter && !name.isEmpty then readInside op ks name a else none
      | _, _ => none

/-- One line of a host program, from its text (R75). -/
def readLine (t : List Char) : Option Line := readTight (t.filter fun c => c != ' ')

/-- A host program, one line for each element (R75). -/
def readProgram : List (List Char) → Option (List Line)
  | [] => some []
  | t :: ts =>
    match readLine t, readProgram ts with
    | some l, some ls => some (l :: ls)
    | _, _ => none

/-- The draws of the pseudo-operation, `pos` left out only when `fire` is false. -/
def attemptDrawsOf : List Draw → Option AttemptDraws
  | [.fire f, .pos n, .lose b] => some ⟨f, n, b⟩
  | [.fire false, .lose b] => some ⟨false, 0, b⟩
  | _ => none

/-- `payload, p, q ; fire, pos, lose` of the pseudo-operation, as the four lines it stands for. The spec does not say
whether it may stand among other lines, be given a name, or take names bound earlier: the model reads it alone, unnamed
and with literal operands. DESIGN CHOICE, log 20. -/
def readAttemptInside (t : List Char) : Option (List Line) :=
  match splitOnce ';' t with
  | none => none
  | some (a, d) =>
    match readArgs [.bytes, .prob, .prob] (splitFields ',' a), (readDraws (splitFields ',' d)).bind attemptDrawsOf with
    | some [.lit (.bytes x), .lit (.prob p), .lit (.prob q)], some ds => some (attemptProgram x ⟨p, q⟩ ds)
    | _, _ => none

/-- The pseudo-operation `ATTEMPT(payload, p, q ; fire, pos, lose)`, "which stands for the four lines of one transmission
attempt" (R76), from its text. It is no line of `readProgram`: DESIGN CHOICE, log 20. -/
def readAttempt (t : List Char) : Option (List Line) :=
  match splitOnce '(' (t.filter fun c => c != ' ') with
  | some (['A', 'T', 'T', 'E', 'M', 'P', 'T'], inside) => (beforeClose inside).bind readAttemptInside
  | _ => none

end Sys2Proof.Machine
end

