-- ==== Sys2Proof/Machine/Ports.lean ====
section
/-! DEFINITION. The four named units as combinational functions with the spec's ports (30_encoding R78): "outputs are
functions of the inputs presented at the same time". -/

namespace Sys2Proof.Machine

/-- The output port of hamming_7_4_encoder. -/
structure EncoderPorts where
  cw_o : BitVec 7
  deriving DecidableEq, Repr

/-- The output ports of hamming_7_4_decoder. -/
structure DecoderPorts where
  nib_o : BitVec 4
  syn_o : BitVec 3
  cwc_o : BitVec 7
  deriving DecidableEq, Repr

/-- The output ports of syndrome_lookup_table. -/
structure TablePorts where
  idx_o  : BitVec 3
  mask_o : BitVec 7
  deriving DecidableEq, Repr

/-- The output port of bit_error_injector. -/
structure InjectorPorts where
  bits_o : Bits
  deriving DecidableEq, Repr

/-- hamming_7_4_encoder: `cw_o[6] = p1`, `cw_o[3:0] = n` (R78). -/
def encoderUnit (nib_i : BitVec 4) : EncoderPorts := ⟨encn nib_i⟩

/-- hamming_7_4_decoder: recovered nibble, syndrome with `syn_o[2] = s2`, corrected codeword (R78). -/
def decoderUnit (cw_i : BitVec 7) : DecoderPorts :=
  let d := decw cw_i
  ⟨d.nib, d.syn, d.cc⟩

/-- syndrome_lookup_table (R78). -/
def tableUnit (syn_i : BitVec 3) : TablePorts :=
  let c := slut syn_i
  ⟨c.idx, c.mask⟩

/-- bit_error_injector; `p` "does not reach the injector's ports" (R79). With `fire_i` 1 and `pos_i` no position of
`bits_i` the rule does not say what the port carries: it keeps its width of `L` bits and each of them is a free value,
DESIGN CHOICE, log 21. -/
def injectorUnit (bits_i : Bits) (fire_i : Bool) (pos_i : Nat) : InjectorPorts :=
  if fire_i && decide (bits_i.length ≤ pos_i) then
    ⟨(List.range bits_i.length).map (Config.openPortBit bits_i pos_i)⟩
  else ⟨inj bits_i fire_i pos_i⟩

end Sys2Proof.Machine
end

