-- ==== Sys2Proof/Machine/Code.lean ====
section
/-! DEFINITION. The code as matrices (30_encoding R77), and the number of positions in which words differ (40_encoder R92,
41_decoder R106). None of it is used by an operation; the laws of the code are stated with it. -/

namespace Sys2Proof.Machine

/-- The generator row of data bit `b_i`: the codeword of the nibble with only that bit set (R77). -/
def generatorRow : Fin 4 → Codeword
  | 0 => 0x51#7
  | 1 => 0x72#7
  | 2 => 0x34#7
  | 3 => 0x68#7

/-- "The codeword of a nibble is the ⊕ of the rows of its 1 bits" (R77). -/
def generatorSum (n : Nibble) : Codeword :=
  (if nibbleBit n 3 then generatorRow 3 else 0#7) ^^^ (if nibbleBit n 2 then generatorRow 2 else 0#7) ^^^
    (if nibbleBit n 1 then generatorRow 1 else 0#7) ^^^ (if nibbleBit n 0 then generatorRow 0 else 0#7)

/-- The parity-check row of syndrome bit `s_i`, "with a 1 where the codeword position enters the equation" (R77). -/
def checkRow : Fin 3 → Codeword
  | 0 => 0b0010111#7
  | 1 => 0b0101110#7
  | 2 => 0b1001011#7

/-- The ⊕ of all bits of a sequence. -/
def xorAll : Bits → Bit
  | [] => false
  | b :: s => b ^^ xorAll s

/-- Syndrome bit `s_i` by its parity-check row (R77). -/
def checkBit (i : Fin 3) (c : Codeword) : Bit := xorAll (codewordBits (c &&& checkRow i))

/-- The number of 1 bits of a sequence. -/
def ones : Bits → Nat
  | [] => 0
  | b :: s => b.toNat + ones s

/-- The number of positions in which two codewords differ (R92 item 7). -/
def distance (a b : Codeword) : Nat := ones (codewordBits (a ^^^ b))

/-- The number of positions in which two streams of one length differ (R124). -/
def streamDistance : Bits → Bits → Nat
  | a :: s, b :: t => (a ^^ b).toNat + streamDistance s t
  | _, _ => 0

/-- A valid codeword: "one of the 16 sequences `ENCN(n)`" (R16). -/
def validCodeword (c : Codeword) : Prop := ∃ n, c = encn n

/-- The syndrome of a single wrong bit at position `k`: 4, 2, 1, 6, 3, 7, 5 for `k = 0..6` (R63, R77, R112). -/
def errorSyndrome : Fin 7 → Syndrome
  | 0 => 4#3
  | 1 => 2#3
  | 2 => 1#3
  | 3 => 6#3
  | 4 => 3#3
  | 5 => 7#3
  | 6 => 5#3

end Sys2Proof.Machine
end

