-- ==== Sys2Proof/Safety.lean ====
section
/-! DEFINITION. The terms claims use: the invariant of the host's records, what a request does alone, and which operations
are inside the contract. -/

namespace Sys2Proof.Machine

/-- What the rules say of every value an operation returns, whatever its operands: ENCN's codeword is valid (R92 item 5);
DECW's corrected codeword is the one of its nibble and is valid (R106); SLUT's index and mask are two forms of one
correction (R66), and the mask's syndrome selects it (R114). -/
def Result.lawful : Result → Bool
  | .codeword c => synd c == 0#3
  | .stream _ => true
  | .syndrome _ => true
  | .decoded d => d.cc == encn d.nib && synd d.cc == 0#3
  | .bytes _ => true
  | .correction c => c.mask == indexMask c.idx && slutIndex (synd c.mask) == c.idx
  | .lost _ => true

/-- A fault carries nothing but its name, so a completion is lawful when its result is. -/
def Completion.lawful : Completion → Bool
  | .ok r => r.lawful
  | .fault _ => true

/-- The names a request has bound, oldest first. -/
def boundNames (b : Bindings) : List Name := b.map Prod.fst

/-- Whether some line of the request faulted. -/
def Request.faulted (q : Request) : Bool := q.bindings.any fun v => v.2.isFault

/-- The record of one request: names are bound once (R75), one for each line performed and in their order; a fault has
ended the program (R75, R146); every value held is one an operation can return. -/
def Request.sound (q : Request) : Prop :=
  (boundNames q.bindings).Nodup ∧ boundNames q.bindings = q.performed.map Line.name ∧ (q.faulted = true → q.program = []) ∧
    ∀ v ∈ q.bindings, v.2.lawful = true

/-- The invariant: every request's record is sound, and so is the value on the interface. -/
def State.Inv (s : State) : Prop :=
  (∀ q ∈ s.requests, q.sound) ∧ ∀ c, s.completion = some c → c.lawful = true

/-- `m` steps, stopping at the first that gives no next state. -/
def runSteps : Nat → State → Host.Outcome State Fault Refusal
  | 0, s => .next s
  | m + 1, s =>
    match step s with
    | .next t => runSteps m t
    | .fault f => .fault f
    | .refused r => .refused r

/-- A request alone in the machine, its next `k` lines issued. -/
def soloState (q : Request) (k : Nat) : State := ⟨⟨⟩, none, [q], List.replicate k 0⟩

/-- What an operation answers on the interface: the completion, or nothing when the model gives it no meaning. -/
def answer (i : Instr) : Option Completion :=
  match exec i State.reset with
  | .next t => t.completion
  | .fault _ => none
  | .refused _ => none

/-- What one attempt alone in the machine comes to (R134): its four lines issued from reset, the outcome read from what
the host then holds. -/
def attemptResult (x : List Byte) (c : Config.Cfg) (d : AttemptDraws) : Option AttemptOutcome :=
  match runSteps 4 (soloState (attemptRequest x c d) 4) with
  | .next t => (t.requests[0]?).bind fun q => attemptOutcome q.bindings
  | .fault _ => none
  | .refused _ => none

/-- Several INJ operations one after the other, each on the last one's result (R163, R164); none when the model gives one
of them no meaning. -/
def injectAll (bits : Bits) : List (Prob × Bool × Nat) → Option Bits
  | [] => some bits
  | (p, fire, pos) :: rest =>
    match answer (.inj bits p fire pos) with
    | some (.ok (.stream out)) => injectAll out rest
    | _ => none

/-- The contract of R145: `p` and `q` are numbers in [0,1], and no flip of an empty stream is asked for. -/
def inContract : Instr → Bool
  | .encn _ => true
  | .enc _ => true
  | .synd _ => true
  | .decw _ => true
  | .dec _ => true
  | .slut _ => true
  | .inj bits p fire _ => inUnitRange p && !(fire && bits.isEmpty)
  | .lose q _ => inUnitRange q

/-- The draws are possible ones for the operands (R121, R131): what "the host must" supply (R150). -/
def drawsPossible : Instr → Bool
  | .encn _ => true
  | .enc _ => true
  | .synd _ => true
  | .decw _ => true
  | .dec _ => true
  | .slut _ => true
  | .inj bits p fire pos => allowsDraw p fire && (!fire || decide (pos < bits.length))
  | .lose q lost => allowsDraw q lost

end Sys2Proof.Machine
end

