-- ==== Sys2Proof/Certificates/Slice0/Obligations.lean ====
section
/-! DEFINITION. The statements for the provers. Every statement about an operation is about `exec`, in every state; where a
statement gives the next state whole, as `s` with its completion replaced, its frame is in it. -/

open Sys2Proof Sys2Proof.Machine

/-! ### The eight operations -/

/-- R90 (40_encoder), with the bit order of R42: ENCN completes in every state on every nibble, the codeword's positions
are `p1, p2, p3, b3, b2, b1, b0`, its vector form ends in the nibble, nothing but the completion changes. -/
def Obligations.EncnAnswersParityThenData : Prop :=
  ∀ (n : Nibble) (s : State), opCode (.encn n) = 0b000#3 ∧ ∃ c : Codeword,
    exec (.encn n) s = .next { s with completion := some (.ok (.codeword c)) } ∧
    posBit c 0 = (n.getLsbD 0 ^^ n.getLsbD 1 ^^ n.getLsbD 3) ∧
    posBit c 1 = (n.getLsbD 1 ^^ n.getLsbD 2 ^^ n.getLsbD 3) ∧
    posBit c 2 = (n.getLsbD 0 ^^ n.getLsbD 1 ^^ n.getLsbD 2) ∧
    posBit c 3 = n.getLsbD 3 ∧ posBit c 4 = n.getLsbD 2 ∧ posBit c 5 = n.getLsbD 1 ∧ posBit c 6 = n.getLsbD 0 ∧
    c.extractLsb' 0 4 = n

/-- R93 (40_encoder): the complete table of ENCN, as vectors, with the number of ones of each codeword.
Derived: the spec marks the table as computed from R90. -/
def Obligations.EncnTableIsTheSpecs : Prop :=
  ((List.range 16).map fun n => answer (.encn (BitVec.ofNat 4 n))) =
    [0x00#7, 0x51#7, 0x72#7, 0x23#7, 0x34#7, 0x65#7, 0x46#7, 0x17#7,
      0x68#7, 0x39#7, 0x1A#7, 0x4B#7, 0x5C#7, 0x0D#7, 0x2E#7, 0x7F#7].map (fun c => some (.ok (.codeword c))) ∧
  ((List.range 16).map fun n => ones (codewordBits (encn (BitVec.ofNat 4 n)))) =
    [0, 3, 4, 3, 3, 4, 3, 4, 3, 4, 3, 4, 4, 3, 4, 7]

/-- R91 (40_encoder): ENC completes in every state on every payload; each byte's high nibble `B[7:4]` is encoded first,
then `B[3:0]`. -/
def Obligations.EncConcatenatesHighThenLow : Prop :=
  ∀ (x : List Byte) (s : State), opCode (.enc x) = 0b001#3 ∧
    exec (.enc x) s = .next { s with completion := some (.ok (.stream
      (x.flatMap fun B => codewordBits (encn (B.extractLsb' 4 4)) ++ codewordBits (encn (B.extractLsb' 0 4))))) }

/-- R92 (40_encoder), its seven laws in order. Derived: the spec marks them as its inference from R90 and R91. -/
def Obligations.EncoderLaws : Prop :=
  (∀ (n : Nibble) (x : List Byte) (s s' : State), ∃ c out : Completion,
    exec (.encn n) s = .next { s with completion := some c } ∧ exec (.encn n) s' = .next { s' with completion := some c } ∧
    exec (.enc x) s = .next { s with completion := some out } ∧ exec (.enc x) s' = .next { s' with completion := some out }) ∧
  (∀ x : List Byte, (enc x).length = Config.codewordBits * (Config.codewordsPerByte * x.length) ∧
    (enc x).length = 14 * x.length) ∧
  (∀ n : Nibble, slice (codewordBits (encn n)) 3 7 = [n.getLsbD 3, n.getLsbD 2, n.getLsbD 1, n.getLsbD 0]) ∧
  (∀ m n : Nibble, encn m = encn n → m = n) ∧ (∀ x y : List Byte, enc x = enc y → x = y) ∧
  (∀ x y : List Byte, enc (x ++ y) = enc x ++ enc y) ∧
  (∀ n : Nibble, synd (encn n) = 0#3) ∧
  (∀ m n : Nibble, encn (m ^^^ n) = encn m ^^^ encn n) ∧
  (∀ m n : Nibble, m ≠ n → 3 ≤ distance (encn m) (encn n))

/-- R43 and R55 (20_memory): byte `j` of the payload gives stream positions `14j .. 14j+13` and nothing else, its high
nibble the first seven of them. Derived: it is stated of ENC only. -/
def Obligations.EncPlacesByteAtFourteenJ : Prop :=
  ∀ (x : List Byte) (j : Nat) (B : Byte), x[j]? = some B →
    slice (enc x) (14 * j) (14 * j + 7) = codewordBits (encn (highNibble B)) ∧
    slice (enc x) (14 * j + 7) (14 * j + 14) = codewordBits (encn (lowNibble B)) ∧
    enc x = enc (x.take j) ++ enc [B] ++ enc (x.drop (j + 1))

/-- R100 (41_decoder): SYND completes in every state on every 7-bit sequence with the three equations; it is linear, so
for a valid codeword and any error pattern the syndrome depends on the error only. -/
def Obligations.SyndAnswersThreeEquations : Prop :=
  ∀ (c e : Codeword) (n : Nibble) (s : State), opCode (.synd c) = 0b010#3 ∧ (∃ y : Syndrome,
    exec (.synd c) s = .next { s with completion := some (.ok (.syndrome y)) } ∧
    y.getLsbD 0 = (posBit c 6 ^^ posBit c 5 ^^ posBit c 4 ^^ posBit c 2) ∧
    y.getLsbD 1 = (posBit c 5 ^^ posBit c 4 ^^ posBit c 3 ^^ posBit c 1) ∧
    y.getLsbD 2 = (posBit c 6 ^^ posBit c 5 ^^ posBit c 3 ^^ posBit c 0)) ∧
    synd (c ^^^ e) = synd c ^^^ synd e ∧ synd (encn n ^^^ e) = synd e

/-- R110 (42_syndrome_lut): SLUT completes in every state on every syndrome; `idx` is the table's entry and `mask` the
sequence with a single 1 at position `idx - 1`, or none. -/
def Obligations.SlutAnswersTheTable : Prop :=
  ∀ (y : Syndrome) (s : State), opCode (.slut y) = 0b101#3 ∧ ∃ c : Correction,
    exec (.slut y) s = .next { s with completion := some (.ok (.correction c)) } ∧
    ([0, 3, 2, 5, 1, 7, 4, 6])[y.toNat]? = some c.idx.toNat ∧
    codewordBits c.mask = (if c.idx = 0#3 then List.replicate 7 false
      else flipAt (List.replicate 7 false) (c.idx.toNat - 1))

/-- R114 (42_syndrome_lut): the laws of the table. Derived: the spec marks them as its inference from R110. -/
def Obligations.TableLaws : Prop :=
  (∀ y : Syndrome, (slut y).idx = 0#3 ↔ y = 0#3) ∧
  (∀ k : Fin 7, (slut (synd (flipPos 0#7 k.val))).idx.toNat = k.val + 1) ∧
  (∀ y : Syndrome, y ≠ 0#3 → synd (slut y).mask = y) ∧
  (∀ c : Codeword, synd (c ^^^ (slut (synd c)).mask) = 0#3)

/-- R112 (42_syndrome_lut): a single flip of a valid codeword at position `k` has syndrome 4, 2, 1, 6, 3, 7, 5, and the
table with `0` for no error that sends each of these back to its `k` is the only one. Derived: the spec marks it as its
inference, and the rule's argument about how strongly each entry is forced is not restated. -/
def Obligations.TableIsForced : Prop :=
  (∀ (n : Nibble) (k : Fin 7), synd (flipPos (encn n) k.val) = errorSyndrome k) ∧
  (∀ f : Syndrome → Index, f 0#3 = 0#3 → (∀ (n : Nibble) (k : Fin 7), (f (synd (flipPos (encn n) k.val))).toNat = k.val + 1) →
    f = fun y => (slut y).idx)

/-- R101 (41_decoder): DECW completes in every state on every 7-bit sequence; it takes SYND's syndrome and SLUT's mask,
adds the mask position by position, and reads the nibble off positions 3 to 6. -/
def Obligations.DecwCorrectsByTheTable : Prop :=
  ∀ (c : Codeword) (s : State), opCode (.decw c) = 0b011#3 ∧ ∃ (d : Decoded) (m : Correction),
    exec (.decw c) s = .next { s with completion := some (.ok (.decoded d)) } ∧
    answer (.synd c) = some (.ok (.syndrome d.syn)) ∧ answer (.slut d.syn) = some (.ok (.correction m)) ∧
    (∀ k, k < 7 → posBit d.cc k = (posBit c k ^^ posBit m.mask k)) ∧
    d.nib.toNat = 8 * (posBit d.cc 3).toNat + 4 * (posBit d.cc 4).toNat + 2 * (posBit d.cc 5).toNat + (posBit d.cc 6).toNat ∧
    (d.corrected = true ↔ d.cc ≠ c) ∧ (m.idx.toNat ≤ 3 → d.nib = dataNibble c) ∧ d.cc = encn d.nib

/-- R103 (41_decoder): a 7-bit sequence is a valid codeword exactly when its syndrome is 0. Derived: the spec marks it as
its inference from R100 and R90. -/
def Obligations.ValidCodewordIffSyndromeZero : Prop :=
  ∀ c : Codeword, validCodeword c ↔ answer (.synd c) = some (.ok (.syndrome 0#3))

/-- R106 (41_decoder): each of the 128 7-bit sequences is one of the 16 valid codewords (syndrome 0) or differs in exactly
one position from exactly one of them; DECW returns that codeword and its nibble, and it returns nibble `n` exactly when
the sequence differs from `ENCN(n)` in at most one position. Derived: the spec marks it as its inference from R101, R103
and R92. -/
def Obligations.DecwAnswersNearestCodeword : Prop :=
  (∀ c : Codeword, ∃ d : Decoded, answer (.decw c) = some (.ok (.decoded d)) ∧
    d.cc = encn d.nib ∧ synd d.cc = 0#3 ∧ distance c d.cc = (if synd c = 0#3 then 0 else 1) ∧
    (∀ n : Nibble, d.nib = n ↔ distance c (encn n) ≤ 1)) ∧
  (((List.range 128).map (BitVec.ofNat 7)).filter fun c => synd c == 0#3).length = 16

/-- R102 (41_decoder), with R46 and R55: DEC completes in every state on every bit sequence. When the length is a multiple
of 7 and the number of codewords is even it answers one byte for each two codewords, byte `j` being 16 times the nibble of
codeword `2j` plus that of codeword `2j + 1`; in the two other cases it answers `MalformedStream` and no bytes. -/
def Obligations.DecAnswersBytesOrMalformed : Prop :=
  ∀ (bits : Bits) (s : State), opCode (.dec bits) = 0b100#3 ∧
    (bits.length % 7 = 0 → bits.length / 7 % 2 = 0 → ∃ y : List Byte,
      exec (.dec bits) s = .next { s with completion := some (.ok (.bytes y)) } ∧ y.length = bits.length / 7 / 2 ∧
      ∀ j, j < y.length → ∃ a b : Codeword,
        codewordOfBits (slice bits (7 * (2 * j)) (7 * (2 * j) + 7)) = some a ∧
        codewordOfBits (slice bits (7 * (2 * j + 1)) (7 * (2 * j + 1) + 7)) = some b ∧
        (y[j]?).map BitVec.toNat = some (16 * (decw a).nib.toNat + (decw b).nib.toNat)) ∧
    (bits.length % 7 ≠ 0 ∨ bits.length % 7 = 0 ∧ bits.length / 7 % 2 ≠ 0 →
      exec (.dec bits) s = .next { s with completion := some (.fault .malformedStream) })

/-- R120 and R125 (43_bit_error_injector): with a possible draw INJ completes in every state, on a stream of any length and
contents: unchanged when `fire` is false, position `pos` inverted and no other when it is true. -/
def Obligations.InjFlipsThePositionDrawn : Prop :=
  ∀ (bits : Bits) (p : Rat) (fire : Bool) (pos : Nat) (s : State), 0 ≤ p → p ≤ 1 →
    opCode (.inj bits (.num p) fire pos) = 0b110#3 ∧
    (p < 1 → exec (.inj bits (.num p) false pos) s = .next { s with completion := some (.ok (.stream bits)) }) ∧
    (0 < p → pos < bits.length → ∃ out : Bits,
      exec (.inj bits (.num p) true pos) s = .next { s with completion := some (.ok (.stream out)) } ∧
      out.length = bits.length ∧ out[pos]? = (bits[pos]?).map (fun b => !b) ∧ ∀ i, i ≠ pos → out[i]? = bits[i]?)

/-- R121 (43_bit_error_injector), R131 (44_frame_loss_and_attempt): INJ completes exactly on the possible draws, and the
results INJ and LOSE can have are exactly those of the relations `INJ_possible` and `LOSE_possible`. Derived: the spec
marks both relations as its inference; that a draw that is not possible is refused is log 6. -/
def Obligations.ResultsAreThePossibleOnes : Prop :=
  (∀ (bits : Bits) (p : Rat) (out : Bits) (s : State), 0 ≤ p → p ≤ 1 →
    (∀ fire pos, (∃ t, exec (.inj bits (.num p) fire pos) s = .next t) ↔
      if fire then 0 < p ∧ pos < bits.length else p < 1) ∧
    ((∃ fire pos, exec (.inj bits (.num p) fire pos) s = .next { s with completion := some (.ok (.stream out)) }) ↔
      injPossible bits p out) ∧
    (p = 0 → ((∃ fire pos, exec (.inj bits (.num p) fire pos) s = .next { s with completion := some (.ok (.stream out)) }) ↔
      out = bits)) ∧
    (p = 1 → ((∃ fire pos, exec (.inj bits (.num p) fire pos) s = .next { s with completion := some (.ok (.stream out)) }) ↔
      ∃ pos, pos < bits.length ∧ out = flipAt bits pos))) ∧
  (∀ (q : Rat) (r : Bool) (s : State), 0 ≤ q → q ≤ 1 →
    ((∃ lost, exec (.lose (.num q) lost) s = .next { s with completion := some (.ok (.lost r)) }) ↔ losePossible q r))

/-- R124 (43_bit_error_injector): whenever INJ completes, its result has the operand's length and differs from it in at
most one position of the whole stream; nothing but the completion changes. -/
def Obligations.InjChangesAtMostOneBit : Prop :=
  ∀ (bits : Bits) (p : Prob) (fire : Bool) (pos : Nat) (s t : State), exec (.inj bits p fire pos) s = .next t →
    ∃ out : Bits, t = { s with completion := some (.ok (.stream out)) } ∧ out.length = bits.length ∧
      streamDistance out bits ≤ 1

/-- R126, R127 and R133 (43_bit_error_injector, 44_frame_loss_and_attempt): INJ and LOSE are refused for a `p` or `q` that
is not a number in [0,1], and INJ for a flip of the empty stream; the empty stream without a flip is answered. Derived:
which name the refusal has where two reasons hold at once is the model's choice (log 14). -/
def Obligations.OutOfContractIsRefused : Prop :=
  (∀ (bits : Bits) (fire : Bool) (pos : Nat) (b : Bool) (s : State),
    exec (.inj bits .notANumber fire pos) s = .refused .probabilityOutOfRange ∧
    exec (.lose .notANumber b) s = .refused .probabilityOutOfRange ∧
    ∀ p : Rat, (p < 0 ∨ 1 < p) → exec (.inj bits (.num p) fire pos) s = .refused .probabilityOutOfRange ∧
      exec (.lose (.num p) b) s = .refused .probabilityOutOfRange) ∧
  (∀ (p : Rat) (pos : Nat) (s : State), 0 ≤ p → p ≤ 1 →
    exec (.inj [] (.num p) true pos) s = .refused .flipOfEmptyStream ∧
    (p < 1 → exec (.inj [] (.num p) false pos) s = .next { s with completion := some (.ok (.stream [])) }))

/-- R130 and R131 (44_frame_loss_and_attempt): with a possible draw LOSE answers that draw, in every state; always false
for 0, always true for 1; true with probability exactly `q`. Derived: that LOSE answers a possible draw only is the model's
reading (log 6), and the probability is that of the model's finite law (log 15). -/
def Obligations.LoseAnswersItsDraw : Prop :=
  ∀ (q : Rat) (r : Bool) (s : State), 0 ≤ q → q ≤ 1 →
    opCode (.lose (.num q) r) = 0b111#3 ∧
    ((if r then 0 < q else q < 1) →
      exec (.lose (.num q) r) s = .next { s with completion := some (.ok (.lost r)) }) ∧
    (∀ t : State, exec (.lose (.num q) r) s = .next t → (if r then 0 < q else q < 1) ∧
      t = { s with completion := some (.ok (.lost r)) } ∧ (q = 0 → r = false) ∧ (q = 1 → r = true)) ∧
    FinDist.prob (loseLaw q) (fun b => b) = q

/-- LOSE completes whenever its draw is possible (R131), and every operation does whose transaction is well formed: its
probability in range and its draws possible (R73). Otherwise it is refused: the model's reading of "not a possible draw"
(log 6), so the statement is derived. -/
def Obligations.WellFormedCompletesOthersRefused : Prop :=
  ∀ (i : Instr) (s : State),
    (i.wf = true → ∃ c : Completion, exec i s = .next { s with completion := some c }) ∧
    (i.wf = false → ∃ r : Refusal, exec i s = .refused r) ∧
    (i.wf = true ↔ inContract i = true ∧ drawsPossible i = true)

/-! ### No state, no memory of what came before -/

/-- R20 (10_state), R49 (20_memory): an operation's outcome depends on its operands and draws only. Whatever state it runs
in, it changes the completion and nothing else, answers the same completion or the same refusal, and never stops with a
fault; and the block has one state only. The frame of every operation. Derived: that a fault is a next state, so that no
operation answers the interface's fault outcome, is the model's reading (log 5). -/
def Obligations.OperationsAreStateless : Prop :=
  ∀ (i : Instr) (s s' : State),
    (∀ t, exec i s = .next t → t = { s with completion := t.completion } ∧ t.completion.isSome = true ∧
      exec i s' = .next { s' with completion := t.completion }) ∧
    (∀ r, exec i s = .refused r → exec i s' = .refused r) ∧
    (∀ f, exec i s ≠ .fault f) ∧ s.block = s'.block

/-- R141 (60_exceptions): `MalformedStream` is raised by DEC with `len(bits) mod 14 ≠ 0`, by nothing else, and by the
length only, never the contents. It cannot occur inside an attempt. -/
def Obligations.OnlyDecFaultsByLength : Prop :=
  (∀ (i : Instr) (s t : State) (f : Fault), exec i s = .next t → t.completion = some (.fault f) →
    ∃ bits : Bits, i = .dec bits ∧ bits.length % 14 ≠ 0 ∧ f = .malformedStream) ∧
  (∀ (a b : Bits) (s : State), a.length = b.length →
    (exec (.dec a) s = .next { s with completion := some (.fault .malformedStream) } ↔
      exec (.dec b) s = .next { s with completion := some (.fault .malformedStream) })) ∧
  (∀ (bits : Bits) (s : State), bits.length % 14 ≠ 0 →
    exec (.dec bits) s = .next { s with completion := some (.fault .malformedStream) }) ∧
  (∀ (x : List Byte) (p : Prob) (fire : Bool) (pos : Nat) (out : Bits) (s t : State),
    answer (.inj (enc x) p fire pos) = some (.ok (.stream out)) → exec (.dec out) s = .next t →
    t.completion ≠ some (.fault .malformedStream))

/-- R140 and R143 (60_exceptions): the status codes, and which of them an operation or an attempt can have: an operation 0 or
1, and 1 exactly with a fault, which is DEC's; a delivered outcome 0, a lost frame 2; code 3 is produced by nothing.
Derived: the numbers are the spec's own choice D5. -/
def Obligations.StatusCodesOfCompletions : Prop :=
  [Status.ok, .malformedStream, .frameLost, .downstreamUnavailable].map Status.code = [0, 1, 2, 3] ∧
  (∀ (i : Instr) (s t : State) (c : Completion), exec i s = .next t → t.completion = some c →
    (c.status.code = 0 ∧ c.isFault = false) ∨ (c.status.code = 1 ∧ c.isFault = true ∧ ∃ bits, i = .dec bits)) ∧
  (∀ (i : Instr) (s t : State) (c : Completion), exec i s = .next t → t.completion = some c →
    c.status ≠ .downstreamUnavailable ∧ c.status ≠ .frameLost) ∧
  (∀ y : List Byte, (AttemptOutcome.delivered y).status.code = 0) ∧ AttemptOutcome.frameLost.status.code = 2 ∧
  (∀ o : AttemptOutcome, o.status ≠ .downstreamUnavailable ∧ o.status ≠ .malformedStream)

/-- R31 and R160: after reset the machine holds nothing, and the first operation answers as in any other state. Derived:
the values of the host's records at reset are the model's choice (log 13), and so is that a step with nothing issued changes
nothing, the clause on `step State.reset` (log 10). -/
def Obligations.ResetHoldsNothing : Prop :=
  State.reset.block = ⟨⟩ ∧ State.reset.completion = none ∧ State.reset.requests = [] ∧ State.reset.issue = [] ∧
  step State.reset = .next State.reset ∧
  ∀ (i : Instr) (s t : State), exec i s = .next t → exec i State.reset = .next ⟨⟨⟩, t.completion, [], []⟩

/-! ### The code -/

/-- R104 (41_decoder): for every nibble and position, and for every payload and position of its stream, one wrong bit is
corrected. -/
def Obligations.OneErrorIsCorrected : Prop :=
  (∀ (n : Nibble) (k : Nat), k < 7 → (decw (encn n)).nib = n ∧ (decw (encn n)).cc = encn n ∧
    (decw (flipPos (encn n) k)).nib = n ∧ (decw (flipPos (encn n) k)).cc = encn n) ∧
  (∀ (x : List Byte) (i : Nat) (s : State), i < 14 * x.length →
    exec (.dec (flipAt (enc x) i)) s = .next { s with completion := some (.ok (.bytes x)) })

/-- R104 (41_decoder), its last sentence: DEC recovers the payload from any stream that differs from its encoding in at most
one position per codeword. Derived: the spec marks it as its inference from R102. -/
def Obligations.OneErrorPerCodewordIsCorrected : Prop :=
  ∀ (x : List Byte) (t : Bits) (s : State), t.length = (enc x).length →
    (∀ m, m < 2 * x.length →
      streamDistance (slice t (7 * m) (7 * m + 7)) (slice (enc x) (7 * m) (7 * m + 7)) ≤ 1) →
    exec (.dec t) s = .next { s with completion := some (.ok (.bytes x)) }

/-- R105 (41_decoder), R165: two flips in one codeword, and any other way to differ from `ENCN(n)` in two to seven
positions, always give a wrong nibble; and from any stream of the encoding's length that differs from it in two or more
positions of some codeword, whatever the other codewords are, DEC completes with status `OK` and wrong bytes. Derived: the
spec marks it as its inference from R101, R77, R92 and R106. -/
def Obligations.TwoErrorsAreSilentlyWrong : Prop :=
  (∀ (n : Nibble) (i j : Nat), i < 7 → j < 7 → i ≠ j → (decw (flipPos (flipPos (encn n) i) j)).nib ≠ n) ∧
  (∀ (n : Nibble) (c : Codeword), 2 ≤ distance c (encn n) → (decw c).nib ≠ n) ∧
  (∀ (x : List Byte) (i j : Nat) (s : State), i < 14 * x.length → j < 14 * x.length → i ≠ j → i / 7 = j / 7 →
    ∃ y : List Byte, exec (.dec (flipAt (flipAt (enc x) i) j)) s = .next { s with completion := some (.ok (.bytes y)) } ∧
      y.length = x.length ∧ y ≠ x) ∧
  (∀ (x : List Byte) (t : Bits) (m : Nat) (s : State), t.length = (enc x).length → m < 2 * x.length →
    2 ≤ streamDistance (slice t (7 * m) (7 * m + 7)) (slice (enc x) (7 * m) (7 * m + 7)) →
    ∃ y : List Byte, exec (.dec t) s = .next { s with completion := some (.ok (.bytes y)) } ∧
      y.length = x.length ∧ y ≠ x)

/-- R107 (41_decoder): DEC undoes ENC, with status `OK`, on every payload, the empty one included. -/
def Obligations.DecUndoesEnc : Prop :=
  ∀ (x : List Byte) (s : State), ∃ t : Bits,
    exec (.enc x) s = .next { s with completion := some (.ok (.stream t)) } ∧
    exec (.dec t) { s with completion := some (.ok (.stream t)) } =
      .next { s with completion := some (.ok (.bytes x)) }

/-- R107 (41_decoder), its last sentence: ENC after DEC replaces every codeword by its corrected form, and gives the stream
back exactly when every codeword was valid. Derived: the spec marks it as its inference from R106. -/
def Obligations.EncAfterDecCorrectsTheStream : Prop :=
  ∀ (t : Bits) (y : List Byte), answer (.dec t) = some (.ok (.bytes y)) →
    enc y = streamOf ((codewordsOf t).map fun c => (decw c).cc) ∧
    (enc y = t ↔ ∀ c ∈ codewordsOf t, validCodeword c)

/-- R128 (43_bit_error_injector): whatever INJ draws, DEC gives the payload back; the codeword hit has the syndrome of its
position and every other has syndrome 0. Derived: the spec marks it as its inference from R124 and R104; the rule's last
sentence, on two INJ operations, is stated by TwoErrorsAreSilentlyWrong and TwoInjectionsCorruptWithTheStatedProbability. -/
def Obligations.DecUndoesOneInjection : Prop :=
  ∀ (x : List Byte) (p : Prob) (fire : Bool) (pos : Nat) (s t : State),
    exec (.inj (enc x) p fire pos) s = .next t → ∃ out : Bits,
      t = { s with completion := some (.ok (.stream out)) } ∧
      exec (.dec out) t = .next { t with completion := some (.ok (.bytes x)) } ∧
      ∀ m, m < 2 * x.length → ((codewordsOf out)[m]?).map synd =
        some (if fire = true ∧ m = pos / 7 then errorSyndrome ⟨pos % 7, Nat.mod_lt pos (by decide)⟩ else 0#3)

/-- R164 (70_reset_and_hazards): a stream from ENC, passed through any number of INJ operations, is decoded into as many
bytes as were encoded, with status `OK`. -/
def Obligations.InjectedStreamsAreNeverMalformed : Prop :=
  ∀ (x : List Byte) (ds : List (Prob × Bool × Nat)) (out : Bits) (s : State), injectAll (enc x) ds = some out →
    ∃ y : List Byte, exec (.dec out) s = .next { s with completion := some (.ok (.bytes y)) } ∧ y.length = x.length

/-- DEC decodes codewords independently (R102) and does not require that its input came from ENC (R109): two streams of
whole codeword pairs decoded as one give the bytes of both, so a stream that gained or lost whole pairs is decoded
without complaint (R164). -/
def Obligations.DecOfConcatenation : Prop :=
  ∀ (a b : Bits) (s : State), a.length % 14 = 0 → b.length % 14 = 0 → ∃ y z : List Byte,
    answer (.dec a) = some (.ok (.bytes y)) ∧ answer (.dec b) = some (.ok (.bytes z)) ∧
    exec (.dec (a ++ b)) s = .next { s with completion := some (.ok (.bytes (y ++ z))) }

/-- R77 (30_encoding): ENCN is the ⊕ of the generator rows of the nibble's 1 bits, SYND the three parity-check rows; the
columns are 4, 2, 1, 6, 3, 7, 5, and every generator row has syndrome 0. Derived: the spec marks it as its inference from
R63 and R64. -/
def Obligations.CodeIsItsMatrices : Prop :=
  (∀ n : Nibble, encn n = generatorSum n) ∧
  (∀ (c : Codeword) (i : Fin 3), (synd c).getLsbD i.val = checkBit i c) ∧
  (∀ k : Fin 7, synd (unitMask k.val) = errorSyndrome k ∧ errorSyndrome k ≠ 0#3) ∧
  (∀ j k : Fin 7, errorSyndrome j = errorSyndrome k → j = k) ∧ (∀ i : Fin 4, synd (generatorRow i) = 0#3)

/-- R41 and R44 (20_memory): the high nibble of a byte is its upper four bits and comes first in `16 * first + second`;
position `k` of a codeword is vector bit `6 - k`, and its unit mask `1 << (6 - k)` has a 1 there and nowhere else. -/
def Obligations.BitAndNibbleOrder : Prop :=
  (∀ B : Byte, (highNibble B).toNat = B.toNat / 16 ∧ (lowNibble B).toNat = B.toNat % 16 ∧
    joinNibbles (highNibble B) (lowNibble B) = B) ∧
  (∀ a b : Nibble, (joinNibbles a b).toNat = 16 * a.toNat + b.toNat) ∧
  (∀ (c : Codeword) (k : Fin 7), posBit c k.val = c.getLsbD (6 - k.val) ∧ unitMask k.val = BitVec.ofNat 7 (2 ^ (6 - k.val)) ∧
    (codewordBits c)[k.val]? = some (c.getLsbD (6 - k.val)) ∧ codewordOfBits (codewordBits c) = some c) ∧
  codewordOfBits [false, true, true, false, true, false, false] = some 0x34#7

/-- R78 (30_encoding): the units' ports carry what their operations answer, and `bits_o` has the width of `bits_i` whatever
the other inputs are. Derived: the ports are the spec's own choice D3, and the width where INJ has no meaning is the
model's (log 21); no clause rests on the free value there. -/
def Obligations.PortsCarryTheOperations : Prop :=
  (∀ n : Nibble, answer (.encn n) = some (.ok (.codeword (encoderUnit n).cw_o)) ∧
    (encoderUnit n).cw_o.extractLsb' 0 4 = n) ∧
  (∀ c : Codeword, answer (.decw c) = some (.ok (.decoded ⟨(decoderUnit c).nib_o, (decoderUnit c).syn_o, (decoderUnit c).cwc_o⟩))) ∧
  (∀ y : Syndrome, answer (.slut y) = some (.ok (.correction ⟨(tableUnit y).idx_o, (tableUnit y).mask_o⟩))) ∧
  (∀ (bits : Bits) (p : Prob) (fire : Bool) (pos : Nat), (Instr.inj bits p fire pos).wf = true →
    answer (.inj bits p fire pos) = some (.ok (.stream (injectorUnit bits fire pos).bits_o))) ∧
  (∀ (bits : Bits) (fire : Bool) (pos : Nat), (injectorUnit bits fire pos).bits_o.length = bits.length)

/-! ### Encoding -/

/-- Decoding the encoding of an operation gives it back, whatever its operands and draws (R71, R75). -/
def Obligations.DecodeUndoesEncode : Prop := ∀ i : Instr, decode (encode i) = .ok i

/-- R70, R71: whatever is decoded has the op code of the transaction, its operands and its draws, bit for bit; only INJ's
`pos` may be left out, when `fire` is false (log 12). So no op code falls through to a neighbour, and two transactions
that decode alike differ in that draw at most. -/
def Obligations.DecodedOperationIsTheTransaction : Prop :=
  ∀ (t : Transaction) (i : Instr), decode t = .ok i → opCode i = t.op ∧ operandValues i = t.operands ∧
    (drawValues i = t.draws ∨ ∃ s p, i = .inj s p false 0 ∧ t.draws = [.fire false])

/-- R70, R72: the eight words of the table, each with its zero operands, decode to the eight operations in order; the
words of three transactions written out bit by bit. Derived: zero operands are the model's choice (log 2). -/
def Obligations.TableWordsDecode : Prop :=
  ((List.range 8).map fun w => decodeTableWord 8 w) =
    [some (.encn 0#4), some (.enc []), some (.synd 0#7), some (.decw 0#7), some (.dec []), some (.slut 0#3),
      some (.inj [] (.num 0) false 0), some (.lose (.num 0) false)] ∧
  decode ⟨0b000#3, [.num 9], []⟩ = .ok (.encn 0b1001#4) ∧
  decode ⟨0b011#3, [.bits [false, true, true, true, false, true, true]], []⟩ = .ok (.decw 0b0111011#7) ∧
  decode ⟨0b101#3, [.num 7], []⟩ = .ok (.slut 0b111#3)

/-- R75, R76 (30_encoding): the four lines of an attempt as the spec writes them (95_test_vectors P2), read as text, are the
four lines of the pseudo-operation ATTEMPT, and so is the pseudo-operation's own text. Derived: how
blanks and names are read is the model's choice (log 17), and so is that ATTEMPT is read alone, unnamed and with literal
operands (log 20). -/
def Obligations.HostTextReadsTheAttempt : Prop :=
  readProgram (["s = ENC([48 69])", "t = INJ(s, 0.1 ; fire=1, pos=17)", "y = DEC(t)", "l = LOSE(0.2 ; lose=0)"].map
    String.toList) = some (attemptProgram [0x48#8, 0x69#8] ⟨.num (mkRat 1 10), .num (mkRat 1 5)⟩ ⟨true, 17, false⟩) ∧
  readAttempt "ATTEMPT([48 69], 0.1, 0.2 ; fire=1, pos=17, lose=0)".toList =
    some (attemptProgram [0x48#8, 0x69#8] ⟨.num (mkRat 1 10), .num (mkRat 1 5)⟩ ⟨true, 17, false⟩)

/-! ### The machine's step -/

/-- A step runs the decoded operation: when the line issued next makes a transaction that decodes to `i`, the step is
`exec i`, and the request that issued it then holds the completion under the line's name, keeps the line performed, and is
at its end if the completion is a fault (R75, R146). Derived: the host's records are the model's (log 1). -/
def Obligations.StepRunsTheDecodedOperation : Prop :=
  ∀ (s : State) (k : Nat) (rest : List Nat) (q : Request) (l : Line) (ls : List Line) (t : Transaction) (i : Instr),
    s.issue = k :: rest → s.requests[k]? = some q → q.program = l :: ls → transactionOf l q.bindings = .ok t →
    decode t = .ok i →
    (∀ u, exec i s = .next u → ∃ c, u.completion = some c ∧
      step s = .next { u with
        requests := s.requests.set k ⟨if c.isFault then [] else ls, q.bindings ++ [(l.name, c)], q.performed ++ [l]⟩,
        issue := rest }) ∧
    (∀ r, exec i s = .refused r → step s = .refused r)

/-- With the words of the table: the step after `withFetchWord` runs the operation the word decodes to, and the new
request then holds what that operation answers. Derived: what a bare word stands for and where it is placed are the
model's choice (log 2, 3). -/
def Obligations.WithFetchWordRunsTheWord : Prop :=
  ∀ (s : State) (nbits w : Nat) (i : Instr), decodeTableWord nbits w = some i →
    ∃ c, answer i = some c ∧ step (s.withFetchWord nbits w) =
      .next { s with
        completion := some c
        requests := s.requests ++ [⟨[], [(['x'], c)], (oneLine ['x'] (wordTransaction w)).program⟩] }

/-- R75 (30_encoding): a name is bound once and an operand names an earlier line. A line that breaks this anywhere among its
operands, with a whole name or with one part, is no transaction; so is one that uses a name bound to a fault, or to a
result that is no operand value or has no such part; so is one whose operands are not its operation's. The step gives it
no meaning, under the name of the first operand at fault. Derived (log 8, 9). -/
def Obligations.BadLinesAreRefused : Prop :=
  ∀ (s : State) (k : Nat) (rest : List Nat) (q : Request) (l : Line) (ls : List Line),
    s.issue = k :: rest → s.requests[k]? = some q → q.program = l :: ls →
    (l.name ∈ boundNames q.bindings → step s = .refused (.badLine .nameAlreadyBound)) ∧
    (l.name ∉ boundNames q.bindings → ∀ (before after : List Arg) (a : Arg) (vs : List Value),
      l.args = before ++ a :: after → resolveArgs q.bindings before = .ok vs →
      (∀ n, n ∉ boundNames q.bindings → (a = .ref n ∨ ∃ f, a = .part n f) →
        step s = .refused (.badLine .unboundName)) ∧
      (∀ n f, lookupName q.bindings n = some (.fault f) → (a = .ref n ∨ ∃ g, a = .part n g) →
        step s = .refused (.badLine .noSuchValue)) ∧
      (∀ n r, lookupName q.bindings n = some (.ok r) →
        (a = .ref n ∧ r.value = none ∨ ∃ g, a = .part n g ∧ r.part g = none) →
        step s = .refused (.badLine .noSuchValue))) ∧
    ((∃ a ∈ l.args, ∃ e, resolveArg q.bindings a = .error e) → ∃ e, step s = .refused (.badLine e)) ∧
    (∀ t e, transactionOf l q.bindings = .ok t → decode t = .error e → step s = .refused (.badTransaction e))

/-- R146 (60_exceptions): DEC's fault reaches the request that issued it in place of a result: its name is bound to the
fault and its program ends; no other request and nothing else is changed, and no line of the ended request is performed
afterwards. Derived: the host's records are the model's (log 1), a fault is a next state (log 5), and an operation issued
for a request at its end is passed over, its issue entry dropped (log 10). -/
def Obligations.FaultEndsOnlyItsRequest : Prop :=
  (∀ (s : State) (k : Nat) (n : Name) (bits : Bits) (q : Request), fetch s = .run k n (.dec bits) →
    s.requests[k]? = some q → bits.length % 14 ≠ 0 → ∃ t, step s = .next t ∧
      t.completion = some (.fault .malformedStream) ∧ t.issue = s.issue.tail ∧ t.block = s.block ∧
      t.requests[k]? = some ⟨[], q.bindings ++ [(n, .fault .malformedStream)], q.performed ++ q.program.take 1⟩ ∧
      ∀ j, j ≠ k → t.requests[j]? = s.requests[j]?) ∧
  (∀ (s : State) (k : Nat) (rest : List Nat) (q : Request), s.issue = k :: rest → s.requests[k]? = some q →
    q.program = [] → step s = .next { s with issue := rest })

/-- R146, R149 (60_exceptions): no step stops the machine with a fault. Derived: that a fault is a next state is the
model's reading (log 5). -/
def Obligations.NoStepStopsWithAFault : Prop := ∀ (s : State) (f : Fault), step s ≠ .fault f

/-- R49, R52: whatever a step performs, it changes one request at most, the one at the head of the issue order; every
other request, and the block, are as they were. The frame of a step. Derived: the host's records are the model's
(log 1, 11). -/
def Obligations.StepTouchesOneRequest : Prop :=
  ∀ s t : State, step s = .next t → t.block = s.block ∧ t.issue = s.issue.tail ∧ t.requests.length = s.requests.length ∧
    ∀ j, s.issue.head? ≠ some j → t.requests[j]? = s.requests[j]?

/-- The invariant holds after reset. Derived: the values of the host's records at reset are the model's choice
(log 13). -/
def Obligations.ResetMeetsInv : Prop := State.reset.Inv

/-- Every step keeps the invariant, from every state that meets it: names are bound once, one for each line
performed, and a fault ends the program (R75, R146), and every value held is one the operations can return: codewords valid (R92 item 5), corrected codewords
those of their nibbles and valid (R106), masks and indexes two forms of one correction (R66, R114). Derived: the host's
records are the model's (log 1). -/
def Obligations.StepKeepsInv : Prop := ∀ s t : State, s.Inv → step s = .next t → t.Inv

/-- R52 (20_memory), R151: "every interleaving gives each operation the result it would have alone". After any number of
steps in any issue order, each request holds exactly what it holds when it is alone in the machine and its own lines are
issued as often. Derived: the issue order is the model's form of an interleaving (log 1, 11). -/
def Obligations.EveryInterleavingIsAsIfAlone : Prop :=
  ∀ (s t : State) (m k : Nat) (q : Request), runSteps m s = .next t → s.requests[k]? = some q →
    ∃ u : State, runSteps ((s.issue.take m).count k)
        (soloState q ((s.issue.take m).count k)) = .next u ∧ u.requests[0]? = t.requests[k]?

/-- R51 (20_memory): two operations of different requests, between which no data flows, may be performed in either order
with the same results. Derived: the issue order is the model's form of an interleaving (log 1, 11). -/
def Obligations.OperationsOfDifferentRequestsCommute : Prop :=
  ∀ (s t : State) (j k : Nat) (rest : List Nat), j ≠ k → s.issue = j :: k :: rest →
    runSteps 2 s = .next t →
    ∃ u : State, runSteps 2 { s with issue := k :: j :: rest } = .next u ∧
      u.requests = t.requests ∧ u.issue = t.issue ∧ u.block = t.block

/-! ### The transmission attempt -/

/-- R134 and R135 (44_frame_loss_and_attempt): for every payload, every `p` and `q` in [0,1] and every possible draw, the
four lines of an attempt all complete, the program is then at its end, and the outcome is `FrameLost` if the draw says so
and otherwise the payload, intact. So an attempt never delivers wrong bytes; each of the two outcomes is possible exactly
when `q` allows it; the payload is delivered with probability `1 - q` and lost with probability `q`. Derived: the spec
marks R135 as its inference, the outcome is read from the host's records (log 16), draws that are not possible come to no
outcome because they are refused (log 6), and the probabilities are those of the model's finite law (log 15). -/
def Obligations.AttemptDeliversIntactOrLoses : Prop :=
  (∀ (x : List Byte) (p q : Rat) (d : AttemptDraws), 0 ≤ p → p ≤ 1 → 0 ≤ q → q ≤ 1 →
    d.possible p q (14 * x.length) = true → ∃ (t : State) (r : Request),
      runSteps 4 (soloState (attemptRequest x ⟨.num p, .num q⟩ d) 4) = .next t ∧
      t.requests = [r] ∧ r.program = [] ∧ r.faulted = false ∧
      attemptOutcome r.bindings = some (if d.lose then .frameLost else .delivered x)) ∧
  (∀ (x : List Byte) (p q : Rat) (o : AttemptOutcome), x ≠ [] → 0 ≤ p → p ≤ 1 → 0 ≤ q → q ≤ 1 →
    ((∃ d : AttemptDraws, attemptResult x ⟨.num p, .num q⟩ d = some o) ↔
      (o = .delivered x ∧ q < 1) ∨ (o = .frameLost ∧ 0 < q))) ∧
  (∀ (x : List Byte) (p q : Rat), x ≠ [] → 0 ≤ p → p ≤ 1 → 0 ≤ q → q ≤ 1 →
    FinDist.prob (attemptLaw p q (14 * x.length))
      (fun d => decide (attemptResult x ⟨.num p, .num q⟩ d = some (.delivered x))) = 1 - q ∧
    FinDist.prob (attemptLaw p q (14 * x.length))
      (fun d => decide (attemptResult x ⟨.num p, .num q⟩ d = some .frameLost)) = q)

/-- R32 (10_state): between the operations of one attempt the host holds the payload bytes, from before ENC on; the stream of
ENC once ENC is performed; the stream of INJ once INJ is; the bytes of DEC once DEC is; the Boolean of LOSE once LOSE is;
and the lines performed with the draws it supplied. Derived: the host's records are the model's (log 1), and that nothing is
discarded after decode is the model's choice (log 23). -/
def Obligations.AttemptHoldsItsValues : Prop :=
  ∀ (x : List Byte) (p q : Rat) (d : AttemptDraws) (m : Nat), 0 ≤ p → p ≤ 1 → 0 ≤ q → q ≤ 1 →
    d.possible p q (14 * x.length) = true → m ≤ 4 → ∃ (t : State) (r : Request),
      runSteps m (soloState (attemptRequest x ⟨.num p, .num q⟩ d) 4) = .next t ∧ t.requests = [r] ∧
      r.payload = some x ∧ r.performed = (attemptProgram x ⟨.num p, .num q⟩ d).take m ∧
      (1 ≤ m → lookupName r.bindings ['s'] = some (.ok (.stream (enc x)))) ∧
      (2 ≤ m → lookupName r.bindings ['t'] = some (.ok (.stream (inj (enc x) d.fire d.pos)))) ∧
      (3 ≤ m → lookupName r.bindings ['y'] = some (.ok (.bytes x))) ∧
      (4 ≤ m → lookupName r.bindings ['l'] = some (.ok (.lost d.lose)))

/-- R134 and 90_conflicts C4: the attempt with the loss decision ahead of the decode comes to the same outcome for every
payload and every possible draw. Derived: the outcome is read from the host's records, and a lost frame is not decoded at
all in that order (log 16). -/
def Obligations.LossFirstAttemptAgrees : Prop :=
  ∀ (x : List Byte) (p q : Rat) (d : AttemptDraws), 0 ≤ p → p ≤ 1 → 0 ≤ q → q ≤ 1 →
    d.possible p q (14 * x.length) = true → ∃ (t u : State) (r v : Request),
      runSteps 4 (soloState (attemptRequest x ⟨.num p, .num q⟩ d) 4) = .next t ∧ t.requests = [r] ∧
      runSteps 4 (soloState (lossFirstRequest x ⟨.num p, .num q⟩ d) 4) = .next u ∧ u.requests = [v] ∧
      v.program = [] ∧ attemptOutcome v.bindings = attemptOutcome r.bindings

/-- R137 (44_frame_loss_and_attempt): both descriptions of the attempt take the draws in the order `fire`, then `pos` only
if `fire`, then `lose`. -/
def Obligations.AttemptTakesDrawsInOrder : Prop :=
  ∀ (x : List Byte) (c : Config.Cfg) (d : AttemptDraws),
    (attemptProgram x c d).flatMap Line.draws =
      (if d.fire then [.fire true, .pos d.pos, .lose d.lose] else [.fire false, .lose d.lose]) ∧
    (attemptLossFirst x c d).flatMap Line.draws = (attemptProgram x c d).flatMap Line.draws

/-- R136 (44_frame_loss_and_attempt): the Impairment Outcome by the draws, its probabilities, and how a host that did not
keep `fire` recovers it: the injected stream differs from the encoded one, and some codeword of it, then exactly one, has
a non-zero syndrome. Derived: the classification is the spec's own choice D18, its last sentence is marked as an inference,
and the probabilities are those of the model's finite law (log 15). -/
def Obligations.ImpairmentOutcomeOfAttempt : Prop :=
  (∀ d : AttemptDraws, d.impairment =
    (if d.lose then .frameLost else if d.fire then .deliveredCorrected else .deliveredClean)) ∧
  (∀ (p q : Rat) (L : Nat), 0 < L →
    FinDist.prob (attemptLaw p q L) (fun d => decide (d.impairment = .deliveredClean)) = (1 - p) * (1 - q) ∧
    FinDist.prob (attemptLaw p q L) (fun d => decide (d.impairment = .deliveredCorrected)) = p * (1 - q) ∧
    FinDist.prob (attemptLaw p q L) (fun d => decide (d.impairment = .frameLost)) = q) ∧
  (∀ (x : List Byte) (p : Prob) (fire : Bool) (pos : Nat) (t : Bits),
    answer (.inj (enc x) p fire pos) = some (.ok (.stream t)) →
    (fire = true ↔ t ≠ enc x) ∧ (fire = true ↔ ∃ c ∈ codewordsOf t, synd c ≠ 0#3) ∧
    ((codewordsOf t).filter fun c => synd c != 0#3).length = (if fire then 1 else 0))

/-! ### The laws of the draws -/

/-- R122 (43_bit_error_injector): the result of INJ on a non-empty stream equals the operand with probability `1 - p` and
`flip(bits, i)` with probability `p / L` for each `i`; the draws listed have total probability 1, and those of non-zero
probability are possible ones (R121); a given codeword of an `m`-codeword stream is hit with probability `p / m` (R124).
For the empty stream `fire` still has probability `p`. Derived: the law is the model's finite list (log 15), its form for
the empty stream and its `pos` when `fire` is false are the model's choices (log 22, 24), and the spec marks the clause on `p / m` as its inference; independence is
stated by DrawsAreIndependentOfEverythingBefore. -/
def Obligations.InjResultProbabilities : Prop :=
  ∀ (bits : Bits) (p : Rat), bits ≠ [] →
    FinDist.prob (injLaw p bits.length) (fun _ => true) = 1 ∧
    FinDist.prob (injLaw p bits.length) (fun d => decide (inj bits d.1 d.2 = bits)) = 1 - p ∧
    (∀ i, i < bits.length →
      FinDist.prob (injLaw p bits.length) (fun d => decide (inj bits d.1 d.2 = flipAt bits i)) = p / bits.length) ∧
    (0 ≤ p → p ≤ 1 → ∀ v ∈ injLaw p bits.length, v.2 ≠ 0 → (Instr.inj bits (.num p) v.1.1 v.1.2).wf = true) ∧
    (∀ m k, k < m → FinDist.prob (injLaw p (7 * m)) (fun d => d.1 && decide (d.2 / 7 = k)) = p / m) ∧
    (∀ L, FinDist.prob (injLaw p L) (fun _ => true) = 1 ∧ FinDist.prob (injLaw p L) (fun d => d.1) = p)

/-- R132 (44_frame_loss_and_attempt): the four combinations of (`fire`, `lose`) in one attempt have probabilities
`(1-p)(1-q)`, `p(1-q)`, `(1-p)q`, `pq`. Derived: the law is the model's finite list (log 15); its form for the empty stream
is the model's choice (log 22). Independence from every other operation is stated by
DrawsAreIndependentOfEverythingBefore. -/
def Obligations.FireAndLoseAreIndependent : Prop :=
  ∀ (p q : Rat) (L : Nat),
    FinDist.prob (attemptLaw p q L) (fun d => !d.fire && !d.lose) = (1 - p) * (1 - q) ∧
    FinDist.prob (attemptLaw p q L) (fun d => d.fire && !d.lose) = p * (1 - q) ∧
    FinDist.prob (attemptLaw p q L) (fun d => !d.fire && d.lose) = (1 - p) * q ∧
    FinDist.prob (attemptLaw p q L) (fun d => d.fire && d.lose) = p * q

/-- R122 (43_bit_error_injector), R132 (44_frame_loss_and_attempt): in a run of any number of operations, of whatever
requests and attempts, the draws of each operation are independent of everything that happened before it: whatever the
host does, and for every event `past` of the draws so far after which it goes on with operation `o`, the probability that
`past` happened and the draws of `o` then fall in `e` is the product of the two probabilities. The law of a run has total
probability 1. Derived: the law is the model's finite list (log 15). -/
def Obligations.DrawsAreIndependentOfEverythingBefore : Prop :=
  ∀ (host : HostPolicy) (m : Nat), FinDist.prob (runLaw host m []) (fun _ => true) = 1 ∧
    ∀ (past : List OpDraw → Bool) (o : DrawingOp) (e : OpDraw → Bool),
      (∀ h, past h = true → h.length = m ∧ host h = some o) →
      FinDist.prob (runLaw host (m + 1) []) (fun h => past (h.take m) && (h[m]?).any e) =
        FinDist.prob (runLaw host m []) past * FinDist.prob o.law e

/-- R122, R132: the draws of any sequence of INJ and LOSE operations are independent of one another: an event for each has
the product of their probabilities. The law of one attempt is that of its INJ followed by its LOSE. Derived: the laws are
the model's finite lists (log 15). -/
def Obligations.DrawsOfASequenceAreIndependent : Prop :=
  (∀ (os : List DrawingOp) (es : List (OpDraw → Bool)), es.length = os.length →
    FinDist.prob (runLaw (inSequence os) os.length []) (allIn es) =
      (List.zipWith (fun o e => FinDist.prob o.law e) os es).prod) ∧
  (∀ (p q : Rat) (L : Nat) (e f : OpDraw → Bool),
    FinDist.prob (attemptLaw p q L) (fun d => e (.inj d.fire d.pos) && f (.lose d.lose)) =
      FinDist.prob (runLaw (inSequence [.inj p L, .lose q]) 2 []) (allIn [e, f]))

/-- R163 (70_reset_and_hazards): of two independent INJ operations on an `m`-codeword stream both flip in one codeword with
probability `p^2 / m`, and DEC then answers wrong bytes with status `OK` with probability `6 p^2 / (7 m)`. Derived: the
spec marks it as its inference from R122, and the law of the two INJ is the product of the model's finite
lists (log 15). -/
def Obligations.TwoInjectionsCorruptWithTheStatedProbability : Prop :=
  ∀ (x : List Byte) (p : Rat), x ≠ [] →
    FinDist.prob (FinDist.both (injLaw p (14 * x.length)) (injLaw p (14 * x.length)))
      (fun v => v.1.1 && v.2.1 && decide (v.1.2 / 7 = v.2.2 / 7)) = p ^ 2 / (2 * x.length : Nat) ∧
    FinDist.prob (FinDist.both (injLaw p (14 * x.length)) (injLaw p (14 * x.length)))
      (fun v => decide (∃ y ∈ (dec (inj (inj (enc x) v.1.1 v.1.2) v.2.1 v.2.2)).toOption, y ≠ x)) =
      6 * p ^ 2 / (7 * (2 * x.length : Nat))
end

