-- ==== Sys2Proof/Laws/Chance.lean ====
section
/-! SUPPORT. How a probability is computed through the ways a law is built, so that no proof unfolds `FinDist.prob`. -/

namespace Sys2Proof.Machine

variable {α β : Type}

@[simp] theorem prob_nil (ev : α → Bool) : FinDist.prob [] ev = 0 := rfl

theorem prob_cons (a : α) (x : Rat) (d : FinDist α) (ev : α → Bool) :
    FinDist.prob ((a, x) :: d) ev = (if ev a then x else 0) + FinDist.prob d ev := by
  by_cases h : ev a = true <;> simp [FinDist.prob, h]

theorem prob_append (d e : FinDist α) (ev : α → Bool) :
    FinDist.prob (d ++ e) ev = FinDist.prob d ev + FinDist.prob e ev := by
  simp [FinDist.prob]

/-- A law carried along a function, every probability multiplied by `x`. -/
theorem prob_map_mul (g : α → β) (x : Rat) (d : FinDist α) (ev : β → Bool) :
    FinDist.prob (d.map fun w => (g w.1, x * w.2)) ev = x * FinDist.prob d (fun a => ev (g a)) := by
  induction d with
  | nil => simp
  | cons w d ih =>
    rw [List.map_cons, prob_cons, ih, show w :: d = (w.1, w.2) :: d from rfl, prob_cons]
    split <;> ring

/-- A law carried along a function. -/
theorem prob_map (g : α → β) (d : FinDist α) (ev : β → Bool) :
    FinDist.prob (d.map fun w => (g w.1, w.2)) ev = FinDist.prob d (fun a => ev (g a)) := by
  simpa using prob_map_mul g 1 d ev

theorem prob_flatMap (f : α × Rat → FinDist β) (d : FinDist α) (ev : β → Bool) :
    FinDist.prob (d.flatMap f) ev = (d.map fun v => FinDist.prob (f v) ev).sum := by
  induction d with
  | nil => rfl
  | cons v d ih => rw [List.flatMap_cons, prob_append, ih, List.map_cons, List.sum_cons]

/-- Events that agree wherever the law lists a value have one probability. -/
theorem prob_congr {d : FinDist α} {ev fv : α → Bool} (h : ∀ v ∈ d, ev v.1 = fv v.1) :
    FinDist.prob d ev = FinDist.prob d fv := by
  unfold FinDist.prob
  rw [List.filter_congr h]

/-- When every value listed leads on with the same further probability, or with none outside the event, the whole is a
product. -/
theorem sum_map_mul_prob (d : FinDist α) (ev : α → Bool) (x : Rat) :
    (d.map fun v => v.2 * if ev v.1 then x else 0).sum = FinDist.prob d ev * x := by
  induction d with
  | nil => simp
  | cons v d ih =>
    rw [List.map_cons, List.sum_cons, ih, show v :: d = (v.1, v.2) :: d from rfl, prob_cons]
    split <;> ring

/-- The law of INJ's draws on a stream that has a position. -/
theorem injLaw_of_ne_zero (p : Rat) {L : Nat} (h : L ≠ 0) :
    injLaw p L = ((false, 0), 1 - p) :: (List.range L).map fun i => ((true, i), p / L) := by
  rw [injLaw, if_neg h]

/-- A run goes on from the draws it began with. -/
theorem runLaw_prefix {host : HostPolicy} {m : Nat} : ∀ {h : List OpDraw} {w : List OpDraw × Rat},
    w ∈ runLaw host m h → h <+: w.1 := by
  induction m with
  | zero =>
    intro h w hw
    simp only [runLaw, List.mem_singleton] at hw
    simp [hw]
  | succ m ih =>
    intro h w hw
    unfold runLaw at hw
    split at hw
    · simp only [List.mem_singleton] at hw
      simp [hw]
    · simp only [List.mem_flatMap, List.mem_map] at hw
      obtain ⟨v, -, u, hu, rfl⟩ := hw
      exact (List.prefix_append h [v.1]).trans (ih (w := u) hu)

/-- The first draw of a run that goes on with `o`. -/
theorem prob_runLaw_succ {host : HostPolicy} {h : List OpDraw} {o : DrawingOp} (ho : host h = some o) (m : Nat)
    (ev : List OpDraw → Bool) :
    FinDist.prob (runLaw host (m + 1) h) ev =
      (o.law.map fun v => v.2 * FinDist.prob (runLaw host m (h ++ [v.1])) ev).sum := by
  simp only [runLaw, ho, prob_flatMap]
  congr 1
  refine List.map_congr_left fun v _ => ?_
  simpa using prob_map_mul id v.2 (runLaw host m (h ++ [v.1])) ev

/-- A run that is over draws nothing more. -/
theorem runLaw_over {host : HostPolicy} {h : List OpDraw} (ho : host h = none) (m : Nat) :
    runLaw host m h = [(h, 1)] := by
  cases m <;> simp [runLaw, ho]

end Sys2Proof.Machine
end

