-- ==== Sys2Proof/Laws/Operands.lean ====
section
/-! SUPPORT. The small laws of codewords, streams and the flip of a stream. -/

namespace Sys2Proof.Machine

set_option maxRecDepth 20000

@[simp] theorem codewordBits_length (c : Codeword) : (codewordBits c).length = 7 := rfl

/-- A codeword packed again from its positions is itself. -/
@[simp] theorem packCodeword_posBit : ∀ c : Codeword,
    packCodeword (posBit c 0) (posBit c 1) (posBit c 2) (posBit c 3) (posBit c 4) (posBit c 5) (posBit c 6) = c := by
  decide

/-- The positions of a packed codeword are the bits it was packed from. -/
@[simp] theorem codewordBits_packCodeword : ∀ c0 c1 c2 c3 c4 c5 c6 : Bit,
    codewordBits (packCodeword c0 c1 c2 c3 c4 c5 c6) = [c0, c1, c2, c3, c4, c5, c6] := by
  decide

/-- Only the seven bits of a codeword are read as that codeword. -/
theorem codewordBits_of_codewordOfBits {s : Bits} {c : Codeword} (h : codewordOfBits s = some c) :
    codewordBits c = s := by
  unfold codewordOfBits at h
  split at h
  · cases h; simp
  · cases h

@[simp] theorem codewordsOf_nil : codewordsOf [] = [] := by simp [codewordsOf]

/-- A stream that begins with a codeword's bits has it as its first codeword. -/
@[simp] theorem codewordsOf_codewordBits_append (c : Codeword) (s : Bits) :
    codewordsOf (codewordBits c ++ s) = c :: codewordsOf s := by
  have h := packCodeword_posBit c
  simp only [codewordBits, List.cons_append, List.nil_append, codewordsOf, h]

/-- Cutting undoes writing codewords one after the other. -/
@[simp] theorem codewordsOf_streamOf (cs : List Codeword) : codewordsOf (streamOf cs) = cs := by
  induction cs with
  | nil => simp [streamOf]
  | cons c cs ih => rw [streamOf, codewordsOf_codewordBits_append, ih]

/-- Seven bits for each codeword; a rest of fewer is in none. -/
@[simp] theorem codewordsOf_length (s : Bits) : (codewordsOf s).length = s.length / 7 := by
  induction s using codewordsOf.induct with
  | case1 c0 c1 c2 c3 c4 c5 c6 rest ih => simp only [codewordsOf, List.length_cons, ih]; omega
  | case2 s h =>
    match s, h with
    | [], _ => rfl
    | [_], _ => simp [codewordsOf]
    | [_, _], _ => simp [codewordsOf]
    | [_, _, _], _ => simp [codewordsOf]
    | [_, _, _, _], _ => simp [codewordsOf]
    | [_, _, _, _, _], _ => simp [codewordsOf]
    | [_, _, _, _, _, _], _ => simp [codewordsOf]
    | c0 :: c1 :: c2 :: c3 :: c4 :: c5 :: c6 :: rest, h => exact absurd rfl (h c0 c1 c2 c3 c4 c5 c6 rest)

/-- Two nibbles for each byte. -/
@[simp] theorem regroup_length : ∀ l : List Nibble, (regroup l).length = l.length / 2
  | a :: b :: r => by simp only [regroup, List.length_cons, regroup_length r]; omega
  | [] => rfl
  | [_] => by simp [regroup]

/-- A flip keeps the length. -/
@[simp] theorem flipAt_length : ∀ (s : Bits) (i : Nat), (flipAt s i).length = s.length
  | [], _ => rfl
  | _ :: _, 0 => rfl
  | _ :: s, i + 1 => by simp [flipAt, flipAt_length s i]

/-- A flip inverts its position and no other. -/
theorem flipAt_getElem? : ∀ (s : Bits) (i j : Nat),
    (flipAt s i)[j]? = if j = i then (s[j]?).map (fun b => !b) else s[j]?
  | [], _, _ => by simp [flipAt]
  | _ :: _, 0, 0 => by simp [flipAt]
  | _ :: _, 0, _ + 1 => by simp [flipAt]
  | _ :: _, _ + 1, 0 => by simp [flipAt]
  | _ :: s, i + 1, j + 1 => by simp [flipAt, flipAt_getElem? s i j]

/-- Two flips of one position cancel. -/
@[simp] theorem flipAt_flipAt : ∀ (s : Bits) (i : Nat), flipAt (flipAt s i) i = s
  | [], _ => rfl
  | b :: s, 0 => by simp [flipAt]
  | b :: s, i + 1 => by simp [flipAt, flipAt_flipAt s i]

@[simp] theorem streamDistance_self : ∀ s : Bits, streamDistance s s = 0
  | [] => rfl
  | b :: s => by simp [streamDistance, streamDistance_self s]

/-- A flip of a position of the stream makes one difference. -/
theorem streamDistance_flipAt : ∀ (s : Bits) (i : Nat), streamDistance (flipAt s i) s = if i < s.length then 1 else 0
  | [], _ => by simp [flipAt]
  | b :: s, 0 => by simp [flipAt, streamDistance]
  | b :: s, i + 1 => by simp [flipAt, streamDistance, streamDistance_flipAt s i]

@[simp] theorem inj_length (bits : Bits) (fire : Bool) (pos : Nat) : (inj bits fire pos).length = bits.length := by
  unfold inj; split <;> simp

end Sys2Proof.Machine
end

