-- ==== Sys2Proof/Laws/Decode.lean ====
section
/-! SUPPORT. What decoding does for each value of `op`, so that no proof unfolds the operation select. -/

namespace Sys2Proof

open Machine (Value Draw)

@[simp] theorem decode_op0 (v : List Value) (d : List Draw) : decode ⟨0b000#3, v, d⟩ = decodeEncn d v := rfl
@[simp] theorem decode_op1 (v : List Value) (d : List Draw) : decode ⟨0b001#3, v, d⟩ = decodeEnc d v := rfl
@[simp] theorem decode_op2 (v : List Value) (d : List Draw) : decode ⟨0b010#3, v, d⟩ = decodeSynd d v := rfl
@[simp] theorem decode_op3 (v : List Value) (d : List Draw) : decode ⟨0b011#3, v, d⟩ = decodeDecw d v := rfl
@[simp] theorem decode_op4 (v : List Value) (d : List Draw) : decode ⟨0b100#3, v, d⟩ = decodeDec d v := rfl
@[simp] theorem decode_op5 (v : List Value) (d : List Draw) : decode ⟨0b101#3, v, d⟩ = decodeSlut d v := rfl
@[simp] theorem decode_op6 (v : List Value) (d : List Draw) : decode ⟨0b110#3, v, d⟩ = decodeInj d v := rfl
@[simp] theorem decode_op7 (v : List Value) (d : List Draw) : decode ⟨0b111#3, v, d⟩ = decodeLose d v := rfl

/-- The eight op codes, for a case split on `op` (R72). -/
theorem opCode_cases : ∀ op : OpCode,
    op = 0b000#3 ∨ op = 0b001#3 ∨ op = 0b010#3 ∨ op = 0b011#3 ∨
      op = 0b100#3 ∨ op = 0b101#3 ∨ op = 0b110#3 ∨ op = 0b111#3 := by
  decide

/-- An operation without draws is decoded only when there are none. -/
theorem withoutDraws_ok {i j : Instr} {d : List Draw} (h : withoutDraws i d = .ok j) : j = i ∧ d = [] := by
  cases d <;> simp [withoutDraws] at h
  exact ⟨h.symm, rfl⟩

@[simp] theorem withoutDraws_nil (i : Instr) : withoutDraws i [] = .ok i := rfl

/-- What a bare word decodes to depends on its low three bits only (log 2). -/
theorem wordTransaction_congr {v w : Nat} (h : BitVec.ofNat 3 v = BitVec.ofNat 3 w) :
    wordTransaction v = wordTransaction w := by
  simp only [wordTransaction, h]

end Sys2Proof
end

