-- ==== Sys2Proof/Laws/Exec.lean ====
section
/-! SUPPORT. What each shared operation and each meaning can answer, said once. -/

namespace Sys2Proof.Machine

@[simp] theorem deliver_eq (r : Result) (s : State) :
    deliver r s = .next { s with completion := some (.ok r) } := rfl

@[simp] theorem takeFault_eq (f : Fault) (s : State) :
    takeFault f s = .next { s with completion := some (.fault f) } := rfl

@[simp] theorem exec_encn (n : Nibble) (s : State) : exec (.encn n) s = deliver (.codeword (encn n)) s := rfl
@[simp] theorem exec_enc (x : List Byte) (s : State) : exec (.enc x) s = deliver (.stream (enc x)) s := rfl
@[simp] theorem exec_synd (c : Codeword) (s : State) : exec (.synd c) s = deliver (.syndrome (synd c)) s := rfl
@[simp] theorem exec_decw (c : Codeword) (s : State) : exec (.decw c) s = deliver (.decoded (decw c)) s := rfl
@[simp] theorem exec_slut (y : Syndrome) (s : State) : exec (.slut y) s = deliver (.correction (slut y)) s := rfl

/-- DEC's two checks are one condition on the length (R102). -/
theorem dec_eq_ite (bits : Bits) :
    dec bits = if bits.length % 14 = 0 then .ok (regroup (nibblesOf bits)) else .error .malformedStream := by
  have hn : (nibblesOf bits).length = bits.length / 7 := by simp [nibblesOf]
  unfold dec
  rw [hn]
  by_cases h : bits.length % 14 = 0
  · rw [if_neg (by omega), if_neg (by omega), if_pos h]
  · rw [if_neg h]
    by_cases h7 : bits.length % 7 = 0
    · rw [if_neg (by omega), if_pos (by omega)]
    · rw [if_pos h7]

/-- INJ on a well-formed transaction completes with the stream its draws give (R73, R121). -/
theorem exec_inj_of_wf {bits : Bits} {p : Prob} {fire : Bool} {pos : Nat} (h : (Instr.inj bits p fire pos).wf = true)
    (s : State) : exec (.inj bits p fire pos) s = deliver (.stream (inj bits fire pos)) s := by
  have hn : injRefusal bits p fire pos = none := by
    simp only [Instr.wf, Bool.and_eq_true] at h
    unfold injRefusal
    cases fire
    · simp [h]
    · have h3 := h.2
      simp only [Bool.not_true, Bool.false_or, decide_eq_true_eq] at h3
      have hne : bits ≠ [] := by
        rintro rfl
        simp at h3
      simp [h, hne, h3]
  simp [exec, execInj, hn]

/-- INJ on a transaction that is not well formed is refused. -/
theorem exec_inj_of_not_wf {bits : Bits} {p : Prob} {fire : Bool} {pos : Nat}
    (h : (Instr.inj bits p fire pos).wf = false) (s : State) : ∃ r, exec (.inj bits p fire pos) s = .refused r := by
  change ∃ r, execInj bits p fire pos s = .refused r
  unfold execInj
  cases hr : injRefusal bits p fire pos with
  | some r => exact ⟨r, rfl⟩
  | none =>
    unfold injRefusal at hr
    split at hr <;> try cases hr
    split at hr <;> try cases hr
    split at hr <;> try cases hr
    split at hr <;> try cases hr
    simp_all [Instr.wf]

/-- LOSE on a well-formed transaction answers its draw (R130, R131). -/
theorem exec_lose_of_wf {q : Prob} {lost : Bool} (h : (Instr.lose q lost).wf = true) (s : State) :
    exec (.lose q lost) s = deliver (.lost lost) s := by
  simp only [Instr.wf, Bool.and_eq_true] at h
  simp [exec, execLose, loseRefusal, h]

/-- LOSE on a transaction that is not well formed is refused. -/
theorem exec_lose_of_not_wf {q : Prob} {lost : Bool} (h : (Instr.lose q lost).wf = false) (s : State) :
    ∃ r, exec (.lose q lost) s = .refused r := by
  change ∃ r, execLose q lost s = .refused r
  unfold execLose
  cases hr : loseRefusal q lost with
  | some r => exact ⟨r, rfl⟩
  | none =>
    unfold loseRefusal at hr
    split at hr <;> try cases hr
    split at hr <;> try cases hr
    simp_all [Instr.wf]

end Sys2Proof.Machine
end

