-- ==== Sys2Proof/Laws/PerInstr.lean ====
section
/-! SUPPORT. Facts about every operation as syntax, one lemma for each constructor. Family OpCode: an operation's encoding
has the op code of its row of the table (30_encoding R70), and as many operands and draws as the row has. -/

namespace Sys2Proof.Laws.OpCode

/-- The row of the table: op code, number of operands, number of draws. -/
def row : Instr → Nat × Nat × Nat
  | .encn _ => (0, 1, 0)
  | .enc _ => (1, 1, 0)
  | .synd _ => (2, 1, 0)
  | .decw _ => (3, 1, 0)
  | .dec _ => (4, 1, 0)
  | .slut _ => (5, 1, 0)
  | .inj _ _ _ _ => (6, 2, 2)
  | .lose _ _ => (7, 1, 1)

/-- An operation's encoding is of its row. -/
def Statement (i : Instr) : Prop :=
  ((encode i).op.toNat, (encode i).operands.length, (encode i).draws.length) = row i

theorem encn (n : Nibble) : Statement (.encn n) := rfl
theorem enc (payload : List Byte) : Statement (.enc payload) := rfl
theorem synd (c : Codeword) : Statement (.synd c) := rfl
theorem decw (c : Codeword) : Statement (.decw c) := rfl
theorem dec (bits : Bits) : Statement (.dec bits) := rfl
theorem slut (syn : Syndrome) : Statement (.slut syn) := rfl
theorem inj (bits : Bits) (p : Prob) (fire : Bool) (pos : Nat) : Statement (.inj bits p fire pos) := rfl
theorem lose (q : Prob) (lost : Bool) : Statement (.lose q lost) := rfl

end Sys2Proof.Laws.OpCode
end

