-- ==== Sys2Proof/Laws/State.lean ====
section
/-! SUPPORT. The fields of the state after each update of the shared operations, true by unfolding. -/

namespace Sys2Proof.Machine

@[simp] theorem reset_block : State.reset.block = ⟨⟩ := rfl
@[simp] theorem reset_completion : State.reset.completion = none := rfl
@[simp] theorem reset_requests : State.reset.requests = [] := rfl
@[simp] theorem reset_issue : State.reset.issue = [] := rfl

@[simp] theorem passOver_block (s : State) : (passOver s).block = s.block := rfl
@[simp] theorem passOver_completion (s : State) : (passOver s).completion = s.completion := rfl
@[simp] theorem passOver_requests (s : State) : (passOver s).requests = s.requests := rfl
@[simp] theorem passOver_issue (s : State) : (passOver s).issue = s.issue.tail := rfl

@[simp] theorem issueFirst_block (q : Request) (s : State) : (issueFirst q s).block = s.block := rfl
@[simp] theorem issueFirst_completion (q : Request) (s : State) : (issueFirst q s).completion = s.completion := rfl
@[simp] theorem issueFirst_requests (q : Request) (s : State) : (issueFirst q s).requests = s.requests ++ [q] := rfl
@[simp] theorem issueFirst_issue (q : Request) (s : State) : (issueFirst q s).issue = s.requests.length :: s.issue := rfl

@[simp] theorem requestReceive_bindings (q : Request) (n : Name) (c : Completion) :
    (q.receive n c).bindings = q.bindings ++ [(n, c)] := rfl
@[simp] theorem requestReceive_performed (q : Request) (n : Name) (c : Completion) :
    (q.receive n c).performed = q.performed ++ q.program.take 1 := rfl
@[simp] theorem requestReceive_ok (q : Request) (n : Name) (r : Result) :
    (q.receive n (.ok r)).program = q.program.tail := rfl
@[simp] theorem requestReceive_fault (q : Request) (n : Name) (f : Fault) :
    (q.receive n (.fault f)).program = [] := rfl

/-- Lines that begin with an attempt's ENC hold its payload, whatever else is bound or performed (R32). -/
@[simp] theorem payloadOf_encLine (b : Bindings) (x : List Byte) (ls : List Line) :
    payloadOf b (encLine x :: ls) = some x := rfl

@[simp] theorem receive_block (k : Nat) (n : Name) (s : State) : (receive k n s).block = s.block := by
  unfold receive; split <;> rfl

@[simp] theorem receive_completion (k : Nat) (n : Name) (s : State) :
    (receive k n s).completion = s.completion := by
  unfold receive; split <;> rfl

@[simp] theorem receive_issue (k : Nat) (n : Name) (s : State) : (receive k n s).issue = s.issue.tail := by
  unfold receive; split <;> rfl

/-- A completion that stands on the interface goes to request `k`, which the host holds. -/
theorem receive_requests {k : Nat} {n : Name} {s : State} {c : Completion} {q : Request}
    (hc : s.completion = some c) (hq : s.requests[k]? = some q) :
    (receive k n s).requests = s.requests.set k (q.receive n c) := by
  simp [receive, hc, hq]

/-- The completion of a step that gave no result is none; a result is kept under its status. -/
@[simp] theorem status_ok (r : Result) : (Completion.ok r).status = .ok := rfl
@[simp] theorem status_fault (f : Fault) : (Completion.fault f).status = f.status := rfl

end Sys2Proof.Machine
end

