-- ==== Sys2Proof/Laws/Step.lean ====
section
/-! SUPPORT. What fetching and stepping can do, said once: later proofs cite these in place of unfolding `step`. -/

namespace Sys2Proof.Machine

/-- A name is found exactly when some line has bound it. -/
theorem lookupName_eq_none_iff (b : Bindings) (n : Name) : lookupName b n = none ↔ n ∉ b.map Prod.fst := by
  induction b with
  | nil => simp [lookupName]
  | cons v b ih =>
    obtain ⟨m, c⟩ := v
    by_cases h : m = n
    · simp [lookupName, h]
    · simp only [lookupName, h, if_false, ih, List.map_cons, List.mem_cons, not_or]
      exact ⟨fun hb => ⟨fun e => h e.symm, hb⟩, fun hb => hb.2⟩

/-- Literal operands resolve to themselves, whatever is bound. -/
@[simp] theorem resolveArgs_lit (b : Bindings) (vs : List Value) : resolveArgs b (vs.map Arg.lit) = .ok vs := by
  induction vs with
  | nil => rfl
  | cons v vs ih => simp [resolveArgs, resolveArg, ih]

/-- What a fetched operation comes from. -/
theorem fetch_run {s : State} {k : Nat} {n : Name} {i : Instr} (h : fetch s = .run k n i) :
    ∃ (rest : List Nat) (q : Request) (l : Line) (ls : List Line) (t : Transaction),
      s.issue = k :: rest ∧ s.requests[k]? = some q ∧ q.program = l :: ls ∧ n = l.name ∧
      transactionOf l q.bindings = .ok t ∧ decode t = .ok i := by
  unfold fetch at h
  split at h
  · cases h
  rename_i k' rest hi
  split at h
  · cases h
  rename_i q hq
  unfold fetchLine at h
  split at h
  · cases h
  rename_i l ls hp
  split at h
  · cases h
  rename_i t ht
  split at h
  · cases h
  rename_i j hj
  cases h
  exact ⟨rest, q, l, ls, t, hi, hq, hp, rfl, ht, hj⟩

/-- A line at the head of the request issued next, a transaction that decodes: that operation is fetched. -/
theorem fetch_of_line {s : State} {k : Nat} {rest : List Nat} {q : Request} {l : Line} {ls : List Line}
    {t : Transaction} {i : Instr} (h1 : s.issue = k :: rest) (h2 : s.requests[k]? = some q)
    (h3 : q.program = l :: ls) (h4 : transactionOf l q.bindings = .ok t) (h5 : decode t = .ok i) :
    fetch s = .run k l.name i := by
  simp only [fetch, h1, h2, fetchLine, h3, h4, h5]

/-- The three ways a step gives a next state. -/
theorem step_next_cases {s t : State} (h : step s = .next t) :
    (fetch s = .idle ∧ t = s) ∨ (fetch s = .over ∧ t = passOver s) ∨
      ∃ (k : Nat) (n : Name) (i : Instr) (u : State),
        fetch s = .run k n i ∧ exec i s = .next u ∧ t = receive k n u := by
  unfold step at h
  split at h
  · cases h; exact .inl ⟨‹_›, rfl⟩
  · cases h; exact .inr (.inl ⟨‹_›, rfl⟩)
  · cases h
  · rename_i k n i hf
    split at h
    · rename_i u hu
      cases h
      exact .inr (.inr ⟨k, n, i, u, hf, hu, rfl⟩)
    · cases h
    · cases h

/-- With nothing issued a step changes nothing (R160). -/
theorem step_idle {s : State} (h : s.issue = []) : step s = .next s := by
  simp only [step, fetch, h]

end Sys2Proof.Machine
end

