-- ==== Sys2Proof/Tests/Slice0.lean ====
section
/-! SUPPORT. Tests. Every expected value is the spec's (95_test_vectors V1 to V10, P1 to P6, or the rule named), and every
statement of the obligations that has hypotheses has a witness here. -/

namespace Sys2Proof.Tests

open Sys2Proof Sys2Proof.Machine

/-! ### Helpers -/

/-- The next state of an outcome. -/
def nextOf : Host.Outcome State Fault Refusal → Option State
  | .next t => some t
  | .fault _ => none
  | .refused _ => none

/-- The refusal of an outcome. -/
def refusalOf : Host.Outcome State Fault Refusal → Option Refusal
  | .next _ => none
  | .fault _ => none
  | .refused r => some r

/-- A sequence written as the spec writes it. -/
def bitsOf (t : String) : Bits := (t.toList.filter fun c => c != ' ').map fun c => c == '1'

/-- `ENC([41])` as the spec prints it (V2). -/
def streamA : Bits := bitsOf "0110100 1010001"

/-- A probability written as a fraction. -/
def frac (a b : Nat) : Prob := .num (mkRat a b)

/-- A state with these requests, issued in this order. -/
def hostState (qs : List Request) (order : List Nat) : State := ⟨⟨⟩, none, qs, order⟩

/-- A request that has performed the first lines with these completions and has the other lines still to perform. -/
def midway (done : List String) (b : Bindings) (ts : List String) : Request :=
  ⟨(readProgram (ts.map String.toList)).getD [], b, (readProgram (done.map String.toList)).getD []⟩

/-- A request with the lines of these texts. -/
def textRequest (ts : List String) : Request := ⟨(readProgram (ts.map String.toList)).getD [], [], []⟩

/-! ### Well-formedness refuses each ill-formed transaction (R73, R121, R131) -/

theorem test_wf_inj_p_above_one : (Instr.inj streamA (frac 3 2) true 0).wf = false := by decide
theorem test_wf_inj_p_below_zero : (Instr.inj streamA (.num (-1)) false 0).wf = false := by decide
theorem test_wf_inj_p_not_a_number : (Instr.inj streamA .notANumber false 0).wf = false := by decide
theorem test_wf_inj_fire_with_p_zero : (Instr.inj streamA (.num 0) true 0).wf = false := by decide
theorem test_wf_inj_no_fire_with_p_one : (Instr.inj streamA (.num 1) false 0).wf = false := by decide
theorem test_wf_inj_pos_at_length : (Instr.inj streamA (.num 1) true 14).wf = false := by decide
theorem test_wf_inj_last_pos : (Instr.inj streamA (.num 1) true 13).wf = true := by decide
theorem test_wf_inj_fire_on_empty : (Instr.inj [] (.num 1) true 0).wf = false := by decide
theorem test_wf_lose_q_below_zero : (Instr.lose (.num (mkRat (-1) 10)) false).wf = false := by decide
theorem test_wf_lose_q_not_a_number : (Instr.lose .notANumber false).wf = false := by decide
theorem test_wf_lose_true_with_q_zero : (Instr.lose (.num 0) true).wf = false := by decide
theorem test_wf_lose_false_with_q_one : (Instr.lose (.num 1) false).wf = false := by decide
theorem test_wf_lose_quarter : (Instr.lose (frac 1 4) true).wf = true := by decide

/-! ### Decoding: one transaction of each operation, written from the table (R70) and P1 to P6 -/

theorem test_decode_encn : (decode ⟨0b000#3, [.num 9], []⟩).toOption = some (.encn 0b1001#4) := by decide
theorem test_decode_enc : (decode ⟨0b001#3, [.bytes [0x41#8]], []⟩).toOption = some (.enc [0x41#8]) := by decide
theorem test_decode_synd :
    (decode ⟨0b010#3, [.bits (bitsOf "0111011")], []⟩).toOption = some (.synd 0b0111011#7) := by decide
theorem test_decode_decw :
    (decode ⟨0b011#3, [.bits (bitsOf "0111011")], []⟩).toOption = some (.decw 0x3B#7) := by decide
theorem test_decode_dec : (decode ⟨0b100#3, [.bits streamA], []⟩).toOption = some (.dec streamA) := by decide
theorem test_decode_slut : (decode ⟨0b101#3, [.num 7], []⟩).toOption = some (.slut 0b111#3) := by decide
theorem test_decode_inj : (decode ⟨0b110#3, [.bits streamA, .prob (frac 1 2)], [.fire true, .pos 9]⟩).toOption =
    some (.inj streamA (frac 1 2) true 9) := by decide
theorem test_decode_inj_without_pos :
    (decode ⟨0b110#3, [.bits streamA, .prob (frac 1 2)], [.fire false]⟩).toOption =
      some (.inj streamA (frac 1 2) false 0) := by decide
theorem test_decode_lose :
    (decode ⟨0b111#3, [.prob (frac 1 4)], [.lose true]⟩).toOption = some (.lose (frac 1 4) true) := by decide

/-- The encodings of opcode_table.json, 000 to 111, as table words. -/
theorem test_decode_table_words : ((List.range 8).map fun w => (decodeTableWord 8 w).map fun i => (opCode i).toNat) =
    (List.range 8).map some := by decide

theorem test_decode_nibble_too_wide : decode ⟨0b000#3, [.num 16], []⟩ = .error .numberTooWide := by rfl
theorem test_decode_six_bits : decode ⟨0b011#3, [.bits (bitsOf "011101")], []⟩ = .error .notSevenBits := by decide
theorem test_decode_fire_without_pos :
    decode ⟨0b110#3, [.bits streamA, .prob (frac 1 2)], [.fire true]⟩ = .error .wrongDraws := by rfl
theorem test_decode_enc_of_number : decode ⟨0b001#3, [.num 65], []⟩ = .error .wrongOperands := by rfl

/-! ### The operations, one or two vectors each -/

/-- V1. -/
theorem test_encn_four : answer (.encn 4#4) = some (.ok (.codeword 0b0110100#7)) := by decide
/-- V1. -/
theorem test_encn_thirteen : answer (.encn 13#4) = some (.ok (.codeword 0b0001101#7)) := by decide
/-- V2, high nibble first. -/
theorem test_enc_hi : answer (.enc [0x48#8, 0x69#8]) =
    some (.ok (.stream (bitsOf "0110100 1101000 1000110 0111001"))) := by decide
/-- V2. -/
theorem test_enc_empty : answer (.enc []) = some (.ok (.stream [])) := by decide
/-- V3. -/
theorem test_synd_misprint : answer (.synd 0b0010100#7) = some (.ok (.syndrome 2#3)) := by decide
/-- V3. -/
theorem test_synd_last_bit : answer (.synd 0b0000001#7) = some (.ok (.syndrome 5#3)) := by decide
/-- S1. -/
theorem test_decw_misprint : answer (.decw 0b0010100#7) = some (.ok (.decoded ⟨4#4, 2#3, 0b0110100#7⟩)) := by decide
/-- P6. -/
theorem test_decw_nine : answer (.decw 0b0111011#7) = some (.ok (.decoded ⟨9#4, 7#3, 0b0111001#7⟩)) := by decide
/-- V6. -/
theorem test_dec_slip : answer (.dec (bitsOf "1101000 1000110")) = some (.ok (.bytes [0x86#8])) := by decide
/-- V6. -/
theorem test_dec_seven_bits : answer (.dec (bitsOf "0000000")) = some (.fault .malformedStream) := by decide
/-- V4. -/
theorem test_slut_five : answer (.slut 5#3) = some (.ok (.correction ⟨7#3, 0b0000001#7⟩)) := by decide
/-- V4. -/
theorem test_slut_six : answer (.slut 6#3) = some (.ok (.correction ⟨4#3, 0b0001000#7⟩)) := by decide
/-- V9. -/
theorem test_inj_nine : answer (.inj streamA (frac 1 2) true 9) =
    some (.ok (.stream (bitsOf "0110100 1000001"))) := by decide
/-- V9. -/
theorem test_inj_any_length : answer (.inj (bitsOf "101") (.num 1) true 1) = some (.ok (.stream (bitsOf "111"))) := by
  decide
/-- V10. -/
theorem test_lose_quarter : answer (.lose (frac 1 4) true) = some (.ok (.lost true)) := by decide
/-- V10. -/
theorem test_lose_negative : refusalOf (exec (.lose (.num (mkRat (-1) 10)) false) State.reset) =
    some .probabilityOutOfRange := by decide
/-- V9: refused for the empty stream, and outside [0,1] for any stream. -/
theorem test_inj_refusals : refusalOf (exec (.inj [] (.num 1) true 0) State.reset) = some .flipOfEmptyStream ∧
    refusalOf (exec (.inj streamA (frac 3 2) true 0) State.reset) = some .probabilityOutOfRange := by decide

/-! ### Steps -/

/-- Each of the eight words runs as the first instruction after reset. -/
theorem test_step_table_words : ((List.range 8).map fun w => (nextOf (step (State.reset.withFetchWord 8 w))).bind
      fun t => t.completion.map Completion.status) = List.replicate 8 (some .ok) := by decide

/-- P4: the truncated stream; the next line is not performed, the faulting line is kept. -/
theorem test_step_fault_ends_program :
    (nextOf (step (hostState [textRequest ["y = DEC(0110100 101000)", "z = ENCN(4)"]] [0]))).map State.requests =
      some [midway ["y = DEC(0110100 101000)"] [(['y'], .fault .malformedStream)] []] := by decide

/-- R32: the payload bytes are held before ENC and after it. -/
theorem test_step_payload_is_held : (textRequest ["s = ENC([41])"]).payload = some [0x41#8] ∧
    ((nextOf (step (hostState [textRequest ["s = ENC([41])"]] [0]))).bind fun t =>
      t.requests.head?.bind Request.payload) = some [0x41#8] := by decide

/-- P6: one part of a triple as an operand, `d.nib`. -/
theorem test_step_part_operand :
    (nextOf (step (hostState [midway ["d = DECW(0111011)"]
      [(['d'], .ok (.decoded ⟨9#4, 7#3, 0b0111001#7⟩))] ["c = ENCN(d.nib)"]] [0]))).bind State.completion =
      some (.ok (.codeword 0b0111001#7)) := by decide

/-- P6: a codeword bound by an earlier line is a 7-bit sequence. -/
theorem test_step_name_operand :
    (nextOf (step (hostState [midway ["c = ENCN(9)"] [(['c'], .ok (.codeword 0b0111001#7))] ["z = SYND(c)"]] [0]))).bind
      State.completion = some (.ok (.syndrome 0#3)) := by decide

/-! ### Text (R75) -/

theorem test_text_blanks_and_number : readLine "n = ENCN(0x9)".toList = some ⟨['n'], 0b000#3, [.lit (.num 9)], []⟩ ∧
    readLine "m=SLUT(7)".toList = some ⟨['m'], 0b101#3, [.lit (.num 7)], []⟩ := by decide
theorem test_text_stream : readLine "y = DEC(0110100 1010001)".toList =
    some ⟨['y'], 0b100#3, [.lit (.bits streamA)], []⟩ := by decide
theorem test_text_empty_operands : readLine "s = ENC([])".toList = some ⟨['s'], 0b001#3, [.lit (.bytes [])], []⟩ ∧
    readLine "t = INJ(<>, 0.5 ; fire=0)".toList =
      some ⟨['t'], 0b110#3, [.lit (.bits []), .lit (.prob (frac 1 2))], [.fire false]⟩ := by decide
theorem test_text_attempt : (readAttempt "ATTEMPT([41], 0.1, 0.2 ; fire=0, lose=0)".toList).map (fun ls => ls.map Line.op) =
    some [0b001#3, 0b110#3, 0b100#3, 0b111#3] := by decide
theorem test_text_not_a_line : readLine "y = DEC(0110100".toList = none ∧ readLine "y = FOO(1)".toList = none := by
  decide

/-! ### Witnesses: for each obligation with hypotheses, a state and operands that meet them together -/

theorem exists_next {o : Host.Outcome State Fault Refusal} (h : (nextOf o).isSome = true) : ∃ t, o = .next t := by
  cases o with
  | next t => exact ⟨t, rfl⟩
  | fault f => exact absurd h (by simp [nextOf])
  | refused r => exact absurd h (by simp [nextOf])

theorem exists_refused {o : Host.Outcome State Fault Refusal} (h : (refusalOf o).isSome = true) :
    ∃ r, o = .refused r := by
  cases o with
  | next t => exact absurd h (by simp [refusalOf])
  | fault f => exact absurd h (by simp [refusalOf])
  | refused r => exact ⟨r, rfl⟩

/-- P1, P2 as a machine with two requests, their lines issued in turn. -/
def twoRequests : State :=
  hostState [textRequest ["s = ENC([41])", "y = DEC(s)"], textRequest ["c = ENCN(9)", "z = SYND(c)"]] [0, 1, 0, 1]

/-- One request whose next line faults, one whose program is over, and a value already bound. -/
def faultNext : State :=
  hostState [textRequest ["y = DEC(0110100)", "z = ENCN(4)"],
    midway ["c = ENCN(4)"] [(['c'], .ok (.codeword 0x34#7))] []] [0, 1]

/-- P2's draws. -/
def drawsHi : AttemptDraws := ⟨true, 17, false⟩

/-- EncoderLaws: equal words, different nibbles. -/
theorem witness_EncoderLaws : encn 4#4 = encn 4#4 ∧ enc [0x41#8] = enc [0x41#8] ∧ (4#4 : Nibble) ≠ 5#4 := by decide

/-- EncPlacesByteAtFourteenJ, at the first and the last byte. -/
theorem witness_EncPlacesByteAtFourteenJ : ([0x48#8, 0x69#8] : List Byte)[0]? = some 0x48#8 ∧
    ([0x48#8, 0x69#8] : List Byte)[1]? = some 0x69#8 := by decide

/-- TableLaws: a syndrome that is not 0. -/
theorem witness_TableLaws : (1#3 : Syndrome) ≠ 0#3 := by decide

/-- TableIsForced: a table that meets both conditions. -/
theorem witness_TableIsForced : (slut 0#3).idx = 0#3 ∧
    ∀ (n : Nibble) (k : Fin 7), ((slut (synd (flipPos (encn n) k.val))).idx).toNat = k.val + 1 := by
  refine ⟨by decide, ?_⟩
  decide +kernel

/-- DecwCorrectsByTheTable: a position, and an index that leaves the data bits alone. -/
theorem witness_DecwCorrectsByTheTable : 6 < 7 ∧ (slut (synd 0b0010100#7)).idx.toNat ≤ 3 := by decide

/-- DecAnswersBytesOrMalformed: the empty stream and two codewords; one codeword; thirteen bits; a byte. -/
theorem witness_DecAnswersBytesOrMalformed : (([] : Bits).length % 7 = 0 ∧ ([] : Bits).length / 7 % 2 = 0) ∧
    (streamA.length % 7 = 0 ∧ streamA.length / 7 % 2 = 0) ∧ (bitsOf "0110100 101000").length % 7 ≠ 0 ∧
    ((bitsOf "0110100").length % 7 = 0 ∧ (bitsOf "0110100").length / 7 % 2 ≠ 0) ∧ 0 < [0x41#8].length := by decide

/-- InjFlipsThePositionDrawn, at the ends of the ranges of `p` and `pos`. -/
theorem witness_InjFlipsThePositionDrawn : ((0 : Rat) ≤ 0 ∧ (0 : Rat) ≤ 1 ∧ (0 : Rat) < 1) ∧
    ((0 : Rat) ≤ 1 ∧ (1 : Rat) ≤ 1 ∧ (0 : Rat) < 1 ∧ 13 < streamA.length ∧ 12 ≠ 13) := by decide

/-- ResultsAreThePossibleOnes: the two end cases of each range. -/
theorem witness_ResultsAreThePossibleOnes : ((0 : Rat) ≤ 0 ∧ (0 : Rat) ≤ 1) ∧ ((0 : Rat) ≤ 1 ∧ (1 : Rat) ≤ 1) := by
  decide

/-- InjChangesAtMostOneBit: an INJ that completes. -/
theorem witness_InjChangesAtMostOneBit : ∃ t, exec (.inj streamA (frac 1 2) true 9) State.reset = .next t :=
  exists_next (by decide)

/-- OutOfContractIsRefused: below and above the range; the empty stream within it, at both ends and between them. -/
theorem witness_OutOfContractIsRefused : mkRat (-1) 10 < 0 ∧ 1 < mkRat 3 2 ∧ (0 ≤ mkRat 1 2 ∧ mkRat 1 2 < 1) ∧
    ((0 : Rat) ≤ 0 ∧ (0 : Rat) < 1) ∧ ((0 : Rat) ≤ 1 ∧ (1 : Rat) ≤ 1) := by decide

/-- LoseAnswersItsDraw: a next state at each end of the range, and a draw possible in between. -/
theorem witness_LoseAnswersItsDraw : (∃ t, exec (.lose (.num 0) false) State.reset = .next t) ∧
    (∃ t, exec (.lose (.num 1) true) State.reset = .next t) ∧ (0 : Rat) ≤ 0 ∧ (1 : Rat) ≤ 1 ∧
    (if true = true then 0 < mkRat 1 4 else mkRat 1 4 < 1) ∧ (if false = true then 0 < mkRat 1 4 else mkRat 1 4 < 1) :=
  ⟨exists_next (by decide), exists_next (by decide), by decide, by decide, by decide, by decide⟩

/-- WellFormedCompletesOthersRefused: both cases. -/
theorem witness_WellFormedCompletesOthersRefused : (Instr.inj streamA (.num 1) true 13).wf = true ∧
    (Instr.inj streamA (.num 1) true 14).wf = false := by decide

/-- OperationsAreStateless: an operation that completes and one that is refused. -/
theorem witness_OperationsAreStateless : (∃ t, exec (.synd 0x3B#7) twoRequests = .next t) ∧
    (∃ r, exec (.inj [] (.num 1) true 0) twoRequests = .refused r) :=
  ⟨exists_next (by decide), exists_refused (by decide)⟩

/-- OnlyDecFaultsByLength: a fault, two streams of one length, an injected encoding that is decoded. -/
theorem witness_OnlyDecFaultsByLength : (∃ t, exec (.dec (bitsOf "0110100")) State.reset = .next t ∧
      t.completion = some (.fault .malformedStream)) ∧ (bitsOf "0110100").length = (bitsOf "1111111").length ∧
    (bitsOf "0110100").length % 14 ≠ 0 ∧
    answer (.inj (enc [0x41#8]) (frac 1 2) true 9) = some (.ok (.stream (bitsOf "0110100 1000001"))) ∧
    (∃ t, exec (.dec (bitsOf "0110100 1000001")) State.reset = .next t) :=
  ⟨⟨_, rfl, rfl⟩, by decide, by decide, by decide, exists_next (by decide)⟩

/-- StatusCodesOfCompletions: a fault, whose code is DEC's alone. -/
theorem witness_StatusCodesOfCompletions : (∃ t, exec (.dec [true]) State.reset = .next t ∧
      t.completion = some (.fault .malformedStream)) ∧
    (∃ t, exec (.encn 4#4) State.reset = .next t ∧ t.completion = some (.ok (.codeword 0x34#7))) :=
  ⟨⟨_, rfl, rfl⟩, ⟨_, rfl, rfl⟩⟩

/-- ResetHoldsNothing: an operation that completes in another state. -/
theorem witness_ResetHoldsNothing : ∃ t, exec (.encn 9#4) twoRequests = .next t := ⟨_, rfl⟩

/-- OneErrorIsCorrected: the last position of a codeword and of a stream. -/
theorem witness_OneErrorIsCorrected : 6 < 7 ∧ 13 < 14 * [0x41#8].length := by decide

/-- OneErrorPerCodewordIsCorrected: a stream wrong in one position of each of its codewords (V7). -/
theorem witness_OneErrorPerCodewordIsCorrected : (bitsOf "1110100 1010000").length = (enc [0x41#8]).length ∧
    ∀ m, m < 2 * [0x41#8].length → streamDistance (slice (bitsOf "1110100 1010000") (7 * m) (7 * m + 7))
      (slice (enc [0x41#8]) (7 * m) (7 * m + 7)) ≤ 1 := by decide

/-- TwoErrorsAreSilentlyWrong: two positions of one codeword (V8), a word two away, and V8's
stream with all seven positions of a codeword wrong. -/
theorem witness_TwoErrorsAreSilentlyWrong : 0 < 7 ∧ 6 < 7 ∧ 0 ≠ 6 ∧ 2 ≤ distance 0b1111100#7 (encn 4#4) ∧
    (7 < 14 * [0x41#8].length ∧ 13 < 14 * [0x41#8].length ∧ 7 ≠ 13 ∧ 7 / 7 = 13 / 7) ∧
    ((bitsOf "1001011 1010001").length = (enc [0x41#8]).length ∧ 0 < 2 * [0x41#8].length ∧
      2 ≤ streamDistance (slice (bitsOf "1001011 1010001") 0 7) (slice (enc [0x41#8]) 0 7)) := by decide

/-- EncAfterDecCorrectsTheStream: a stream that DEC decodes and that is no encoding. -/
theorem witness_EncAfterDecCorrectsTheStream : answer (.dec (bitsOf "1111100 1010001")) = some (.ok (.bytes [0xC1#8])) := by decide

/-- DecUndoesOneInjection: P2's injection. -/
theorem witness_DecUndoesOneInjection : (∃ t, exec (.inj (enc [0x48#8, 0x69#8]) (frac 1 10) true 17) State.reset = .next t) ∧
    3 < 2 * [0x48#8, 0x69#8].length := ⟨exists_next (by decide), by decide⟩

/-- InjectedStreamsAreNeverMalformed: P5's two injections. -/
theorem witness_InjectedStreamsAreNeverMalformed :
    injectAll (enc [0x41#8]) [(.num 1, true, 0), (.num 1, true, 3)] = some (bitsOf "1111100 1010001") := by decide

/-- DecOfConcatenation. -/
theorem witness_DecOfConcatenation : streamA.length % 14 = 0 ∧ (bitsOf "1101000 1000110").length % 14 = 0 := by decide

/-- PortsCarryTheOperations. -/
theorem witness_PortsCarryTheOperations : (Instr.inj streamA (frac 1 2) true 9).wf = true := by decide

/-- DecodedOperationIsTheTransaction: with INJ's `pos` left out, and with everything given. -/
theorem witness_DecodedOperationIsTheTransaction :
    decode ⟨0b110#3, [.bits [], .prob (.num 0)], [.fire false]⟩ = .ok (.inj [] (.num 0) false 0) ∧
    decode ⟨0b000#3, [.num 15], []⟩ = .ok (.encn 15#4) := ⟨rfl, rfl⟩

/-- StepRunsTheDecodedOperation: a line that completes, and one whose operation is refused. -/
theorem witness_StepRunsTheDecodedOperation :
    (∃ (q : Request) (l : Line) (ls : List Line) (t : Transaction) (i : Instr) (u : State),
      twoRequests.issue = 0 :: [1, 0, 1] ∧ twoRequests.requests[0]? = some q ∧ q.program = l :: ls ∧
      transactionOf l q.bindings = .ok t ∧ decode t = .ok i ∧ exec i twoRequests = .next u) ∧
    (∃ (q : Request) (l : Line) (t : Transaction) (i : Instr),
      transactionOf l q.bindings = .ok t ∧ q.program = [l] ∧ decode t = .ok i ∧
      ∃ r, exec i (hostState [q] [0]) = .refused r) :=
  ⟨⟨_, _, _, _, _, _, rfl, rfl, rfl, rfl, rfl, rfl⟩,
    ⟨textRequest ["t = INJ(<>, 1.0 ; fire=1, pos=0)"],
      ⟨['t'], 0b110#3, [.lit (.bits []), .lit (.prob (.num (mkRat 10 10)))], [.fire true, .pos 0]⟩, _, _,
      rfl, by decide, rfl, exists_refused (by decide)⟩⟩

/-- WithFetchWordRunsTheWord. -/
theorem witness_WithFetchWordRunsTheWord : decodeTableWord 8 3 = some (.decw 0#7) := by decide

/-- What P6's request holds with a fault and a Boolean beside it. -/
def someBindings : Bindings :=
  [(['d'], .ok (.decoded ⟨9#4, 7#3, 0b0111001#7⟩)), (['y'], .fault .malformedStream), (['l'], .ok (.lost true))]

/-- BadLinesAreRefused: a name bound twice; a second operand not bound, whole and in part, after one that resolves; a fault
and a Boolean as operands, a part that the result does not have; an operand of the wrong width. -/
theorem witness_BadLinesAreRefused :
    (['d'] ∈ boundNames someBindings ∧ ['z'] ∉ boundNames someBindings ∧ ['u'] ∉ boundNames someBindings) ∧
    ((⟨['z'], 0b110#3, [.part ['d'] .cc, .ref ['u']], [.fire false]⟩ : Line).args =
      [Arg.part ['d'] .cc] ++ Arg.ref ['u'] :: []) ∧
    resolveArgs someBindings [.part ['d'] .cc] = .ok [.bits (bitsOf "0111001")] ∧
    lookupName someBindings ['y'] = some (.fault .malformedStream) ∧
    (lookupName someBindings ['l'] = some (.ok (.lost true)) ∧ (Result.lost true).value = none) ∧
    (lookupName someBindings ['d'] = some (.ok (.decoded ⟨9#4, 7#3, 0b0111001#7⟩)) ∧
      (Result.decoded ⟨9#4, 7#3, 0b0111001#7⟩).part .mask = none) ∧
    resolveArg someBindings (.part ['u'] .nib) = .error .unboundName ∧
    transactionOf ⟨['z'], 0b000#3, [.lit (.num 16)], []⟩ [] = .ok ⟨0b000#3, [.num 16], []⟩ ∧
    decode ⟨0b000#3, [.num 16], []⟩ = .error .numberTooWide :=
  ⟨by decide, rfl, by decide, by decide, ⟨by decide, rfl⟩, ⟨by decide, rfl⟩, by decide, rfl, rfl⟩

/-- FaultEndsOnlyItsRequest: a DEC that faults beside another request, and a request that is over. -/
theorem witness_FaultEndsOnlyItsRequest : fetch faultNext = .run 0 ['y'] (.dec (bitsOf "0110100")) ∧
    (∃ q, faultNext.requests[0]? = some q) ∧ (bitsOf "0110100").length % 14 ≠ 0 ∧
    (∃ q, (passOver faultNext).issue = 1 :: [] ∧ (passOver faultNext).requests[1]? = some q ∧ q.program = []) :=
  ⟨by decide, ⟨_, rfl⟩, by decide, ⟨_, rfl, rfl, rfl⟩⟩

/-- StepTouchesOneRequest: a step, and a request it does not touch. -/
theorem witness_StepTouchesOneRequest : (∃ t, step twoRequests = .next t) ∧ twoRequests.issue.head? ≠ some 1 :=
  ⟨exists_next (by decide), by decide⟩

/-- StepKeepsInv: a state that holds a value, meets the invariant and takes a step. -/
theorem witness_StepKeepsInv : faultNext.Inv ∧ ∃ t, step faultNext = .next t := by
  refine ⟨⟨?_, ?_⟩, exists_next (by decide)⟩
  · intro q hq
    have : q = textRequest ["y = DEC(0110100)", "z = ENCN(4)"] ∨
        q = midway ["c = ENCN(4)"] [(['c'], .ok (.codeword 0x34#7))] [] := by
      simpa [faultNext, hostState] using hq
    rcases this with rfl | rfl <;> refine ⟨by decide, by decide, by decide, by decide⟩
  · intro c hc
    cases hc

/-- EveryInterleavingIsAsIfAlone: four steps of two requests. -/
theorem witness_EveryInterleavingIsAsIfAlone : (∃ t, runSteps 4 twoRequests = .next t) ∧
    ∃ q, twoRequests.requests[1]? = some q := ⟨exists_next (by decide), ⟨_, rfl⟩⟩

/-- OperationsOfDifferentRequestsCommute. -/
theorem witness_OperationsOfDifferentRequestsCommute : 0 ≠ 1 ∧ twoRequests.issue = 0 :: 1 :: [0, 1] ∧
    ∃ t, runSteps 2 twoRequests = .next t := ⟨by decide, rfl, exists_next (by decide)⟩

/-- AttemptDeliversIntactOrLoses: P2's attempt delivers, the same with `lose` true is lost. -/
theorem witness_AttemptDeliversIntactOrLoses : 0 ≤ mkRat 1 10 ∧ mkRat 1 10 ≤ 1 ∧ 0 ≤ mkRat 1 5 ∧ mkRat 1 5 ≤ 1 ∧
    drawsHi.possible (mkRat 1 10) (mkRat 1 5) (14 * [0x48#8, 0x69#8].length) = true ∧
    ([0x48#8, 0x69#8] : List Byte) ≠ [] ∧
    attemptResult [0x48#8, 0x69#8] ⟨frac 1 10, frac 1 5⟩ drawsHi = some (.delivered [0x48#8, 0x69#8]) ∧
    attemptResult [0x48#8, 0x69#8] ⟨frac 1 10, frac 1 5⟩ ⟨true, 0, true⟩ = some .frameLost := by decide

/-- AttemptHoldsItsValues: P2's draws, and each moment at which one more value is held. -/
theorem witness_AttemptHoldsItsValues : 0 ≤ mkRat 1 10 ∧ mkRat 1 10 ≤ 1 ∧ 0 ≤ mkRat 1 5 ∧ mkRat 1 5 ≤ 1 ∧
    drawsHi.possible (mkRat 1 10) (mkRat 1 5) (14 * [0x48#8, 0x69#8].length) = true ∧
    (1 ≤ 1 ∧ 2 ≤ 2 ∧ 3 ≤ 3 ∧ 4 ≤ 4 ∧ 0 ≤ 4) := by decide

/-- LossFirstAttemptAgrees: P3's draws. -/
theorem witness_LossFirstAttemptAgrees : 0 ≤ mkRat 1 10 ∧ mkRat 1 10 ≤ 1 ∧ 0 ≤ mkRat 1 5 ∧ mkRat 1 5 ≤ 1 ∧
    AttemptDraws.possible ⟨true, 0, true⟩ (mkRat 1 10) (mkRat 1 5) (14 * [0x48#8, 0x69#8].length) = true := by decide

/-- ImpairmentOutcomeOfAttempt: a stream length, and P2's injection. -/
theorem witness_ImpairmentOutcomeOfAttempt : 0 < 28 ∧ answer (.inj (enc [0x48#8, 0x69#8]) (frac 1 10) true 17) =
    some (.ok (.stream (bitsOf "0110100 1101000 1001110 0111001"))) := by decide

/-- InjResultProbabilities: a stream, its last position, a draw of non-zero probability,
a codeword of a two-codeword stream. -/
theorem witness_InjResultProbabilities : streamA ≠ [] ∧ 13 < streamA.length ∧ 0 ≤ mkRat 1 2 ∧ mkRat 1 2 ≤ 1 ∧
    ((false, 0), 1 - mkRat 1 2) ∈ injLaw (mkRat 1 2) streamA.length ∧ 1 - mkRat 1 2 ≠ 0 ∧ 1 < 2 :=
  ⟨by decide, by decide, by decide, by decide, List.mem_cons_self .., by rw [Rat.mkRat_eq_div]; norm_num, by decide⟩

/-- DrawsAreIndependentOfEverythingBefore: a host that has a second INJ only after a flip, and that past. -/
theorem witness_DrawsAreIndependentOfEverythingBefore : ∀ h : List OpDraw,
    decide (h = [OpDraw.inj true 9]) = true → h.length = 1 ∧
      (fun g => if g = [OpDraw.inj true 9] then some (DrawingOp.inj (mkRat 1 2) 14) else none : HostPolicy) h =
        some (.inj (mkRat 1 2) 14) := by
  intro h hp
  have : h = [OpDraw.inj true 9] := by simpa using hp
  subst this
  exact ⟨rfl, rfl⟩

/-- DrawsOfASequenceAreIndependent: an event for each of two operations. -/
theorem witness_DrawsOfASequenceAreIndependent :
    ([fun d => decide (d = .inj true 9), fun d => decide (d = .lose true)] : List (OpDraw → Bool)).length =
      ([.inj (mkRat 1 2) 14, .lose (mkRat 1 4)] : List DrawingOp).length := rfl

/-- TwoInjectionsCorruptWithTheStatedProbability. -/
theorem witness_TwoInjectionsCorruptWithTheStatedProbability : ([0x41#8] : List Byte) ≠ [] := by decide

end Sys2Proof.Tests
end

section
/-! Unit hamming_7_4_encoder (40_encoder): ENCN position by position, and ENC as one codeword pair for each byte. -/

namespace Sys2Proof.Machine

/-! ### The nibbles of a byte as bit fields -/

/-- R61: the first nibble processed is the field `B[7:4]`. -/
theorem highNibble_eq_extractLsb' (B : Byte) : highNibble B = B.extractLsb' 4 4 := by
  apply BitVec.eq_of_toNat_eq
  simp [highNibble, BitVec.extractLsb'_toNat, Nat.shiftRight_eq_div_pow]

/-- R61: the second nibble processed is the field `B[3:0]`. -/
theorem lowNibble_eq_extractLsb' (B : Byte) : lowNibble B = B.extractLsb' 0 4 := by
  apply BitVec.eq_of_toNat_eq
  simp [lowNibble, BitVec.extractLsb'_toNat]

/-! ### ENCN, position by position -/

/-- R90: the codeword of a nibble as the sequence emitted, parity first. -/
theorem codewordBits_encn (n : Nibble) :
    codewordBits (encn n) =
      [n.getLsbD 0 ^^ n.getLsbD 1 ^^ n.getLsbD 3, n.getLsbD 1 ^^ n.getLsbD 2 ^^ n.getLsbD 3,
        n.getLsbD 0 ^^ n.getLsbD 1 ^^ n.getLsbD 2, n.getLsbD 3, n.getLsbD 2, n.getLsbD 1, n.getLsbD 0] :=
  codewordBits_packCodeword ..

/-- The positions of a codeword are the elements of its sequence (R42). -/
theorem codewordBits_eq_iff {c : Codeword} {c0 c1 c2 c3 c4 c5 c6 : Bit} :
    codewordBits c = [c0, c1, c2, c3, c4, c5, c6] ↔
      posBit c 0 = c0 ∧ posBit c 1 = c1 ∧ posBit c 2 = c2 ∧ posBit c 3 = c3 ∧ posBit c 4 = c4 ∧
        posBit c 5 = c5 ∧ posBit c 6 = c6 := by
  simp [codewordBits]

/-- Two nibbles that agree in their four bits are equal. -/
theorem nibble_ext {m n : Nibble} (h0 : m.getLsbD 0 = n.getLsbD 0) (h1 : m.getLsbD 1 = n.getLsbD 1)
    (h2 : m.getLsbD 2 = n.getLsbD 2) (h3 : m.getLsbD 3 = n.getLsbD 3) : m = n := by
  apply BitVec.eq_of_getLsbD_eq
  intro i hi
  interval_cases i <;> assumption

/-- R90: "the data bits pass through unchanged", so the vector form ends in the nibble (R44). -/
@[simp] theorem extractLsb'_encn (n : Nibble) : (encn n).extractLsb' 0 4 = n := by
  obtain ⟨-, -, -, h3, h2, h1, h0⟩ := codewordBits_eq_iff.mp (codewordBits_encn n)
  simp only [posBit] at h0 h1 h2 h3
  apply nibble_ext <;> simpa [BitVec.getLsbD_extractLsb']

/-! ### ENC, byte by byte -/

/-- R91: the stream is the two codewords of each byte in payload order, the high nibble's first. -/
theorem enc_eq_flatMap (x : List Byte) :
    enc x = x.flatMap fun B => codewordBits (encn (highNibble B)) ++ codewordBits (encn (lowNibble B)) := by
  induction x with
  | nil => rfl
  | cons B rest ih => rw [enc, ih, List.flatMap_cons]

/-! ### The obligations of the encoder's first rules -/

/-- Settles O3: `enc` is a `flatMap` over the payload, and its two nibbles are the byte's bit fields. -/
theorem encConcatenatesHighThenLow : Obligations.EncConcatenatesHighThenLow := by
  intro x s
  refine ⟨rfl, ?_⟩
  rw [exec_enc, deliver_eq, enc_eq_flatMap]
  simp only [highNibble_eq_extractLsb', lowNibble_eq_extractLsb']

/-- Settles O1: the seven positions are read off the emitted sequence, and the vector's low bits are the nibble. -/
theorem encnAnswersParityThenData : Obligations.EncnAnswersParityThenData := by
  intro n s
  refine ⟨rfl, encn n, exec_encn n s, ?_⟩
  obtain ⟨h0, h1, h2, h3, h4, h5, h6⟩ := codewordBits_eq_iff.mp (codewordBits_encn n)
  exact ⟨h0, h1, h2, h3, h4, h5, h6, extractLsb'_encn n⟩

end Sys2Proof.Machine
end

section
/-! Unit hamming_7_4_decoder (41_decoder), one codeword at a time: SYND is linear, SLUT's mask has the syndrome that
selects it, so DECW of a codeword plus an error the table knows gives the codeword back. -/

namespace Sys2Proof.Machine

/-! ### Positions, syndromes and the data nibble -/

/-- R44: ⊕ of two sequences acts position by position. -/
@[simp] theorem posBit_xor (c e : Codeword) (k : Nat) : posBit (c ^^^ e) k = (posBit c k ^^ posBit e k) := by
  simp [posBit]

/-- A codeword is determined by the sequence it stands for (R44). -/
theorem codewordBits_injective {c d : Codeword} (h : codewordBits c = codewordBits d) : c = d := by
  have hs := congrArg codewordsOf (congrArg (· ++ []) h)
  simpa only [codewordsOf_codewordBits_append, List.cons.injEq, and_true] using hs

/-- Two syndromes that agree in their three bits are equal. -/
theorem syndrome_ext {y z : Syndrome} (h0 : y.getLsbD 0 = z.getLsbD 0) (h1 : y.getLsbD 1 = z.getLsbD 1)
    (h2 : y.getLsbD 2 = z.getLsbD 2) : y = z := by
  apply BitVec.eq_of_getLsbD_eq
  intro i hi
  interval_cases i <;> assumption

/-- R64: the bits of a packed syndrome are the three it was packed from. -/
theorem getLsbD_packSyndrome : ∀ s2 s1 s0 : Bit, (packSyndrome s2 s1 s0).getLsbD 0 = s0 ∧
    (packSyndrome s2 s1 s0).getLsbD 1 = s1 ∧ (packSyndrome s2 s1 s0).getLsbD 2 = s2 := by
  decide

/-- R100, the equation of `s0`. -/
theorem synd_getLsbD_zero (c : Codeword) :
    (synd c).getLsbD 0 = (posBit c 6 ^^ posBit c 5 ^^ posBit c 4 ^^ posBit c 2) :=
  (getLsbD_packSyndrome ..).1

/-- R100, the equation of `s1`. -/
theorem synd_getLsbD_one (c : Codeword) :
    (synd c).getLsbD 1 = (posBit c 5 ^^ posBit c 4 ^^ posBit c 3 ^^ posBit c 1) :=
  (getLsbD_packSyndrome ..).2.1

/-- R100, the equation of `s2`. -/
theorem synd_getLsbD_two (c : Codeword) :
    (synd c).getLsbD 2 = (posBit c 6 ^^ posBit c 5 ^^ posBit c 3 ^^ posBit c 0) :=
  (getLsbD_packSyndrome ..).2.2

/-- R68: the number a nibble's four bits stand for. -/
theorem packNibble_toNat : ∀ b3 b2 b1 b0 : Bit,
    (packNibble b3 b2 b1 b0).toNat = 8 * b3.toNat + 4 * b2.toNat + 2 * b1.toNat + b0.toNat := by
  decide

/-- R67: the bits of a packed nibble are the four it was packed from. -/
theorem getLsbD_packNibble : ∀ b3 b2 b1 b0 : Bit,
    (packNibble b3 b2 b1 b0).getLsbD 0 = b0 ∧ (packNibble b3 b2 b1 b0).getLsbD 1 = b1 ∧
      (packNibble b3 b2 b1 b0).getLsbD 2 = b2 ∧ (packNibble b3 b2 b1 b0).getLsbD 3 = b3 := by
  decide

/-- R44, R68: positions 3 to 6 are the low four bits of the vector. -/
theorem dataNibble_eq_extractLsb' (c : Codeword) : dataNibble c = c.extractLsb' 0 4 := by
  obtain ⟨h0, h1, h2, h3⟩ := getLsbD_packNibble (posBit c 3) (posBit c 4) (posBit c 5) (posBit c 6)
  apply nibble_ext <;> simpa [dataNibble, posBit, BitVec.getLsbD_extractLsb']

@[simp] theorem dataNibble_encn (n : Nibble) : dataNibble (encn n) = n := by
  rw [dataNibble_eq_extractLsb', extractLsb'_encn]

theorem dataNibble_xor (c e : Codeword) : dataNibble (c ^^^ e) = dataNibble c ^^^ dataNibble e := by
  simp only [dataNibble_eq_extractLsb', BitVec.extractLsb'_xor]

/-! ### SYND is linear and vanishes on the valid codewords -/

/-- R100: "it is linear". -/
theorem synd_xor (c e : Codeword) : synd (c ^^^ e) = synd c ^^^ synd e := by
  apply syndrome_ext
  · simp only [BitVec.getLsbD_xor, synd_getLsbD_zero, posBit_xor, Bool.xor_assoc, Bool.xor_left_comm]
  · simp only [BitVec.getLsbD_xor, synd_getLsbD_one, posBit_xor, Bool.xor_assoc, Bool.xor_left_comm]
  · simp only [BitVec.getLsbD_xor, synd_getLsbD_two, posBit_xor, Bool.xor_assoc, Bool.xor_left_comm]

/-- R92: every data bit enters each check an even number of times. -/
@[simp] theorem synd_encn : ∀ n : Nibble, synd (encn n) = 0#3 := by decide

/-- R100: the syndrome of a valid codeword with an error is the error's. -/
theorem synd_encn_xor (n : Nibble) (e : Codeword) : synd (encn n ^^^ e) = synd e := by
  rw [synd_xor, synd_encn, BitVec.zero_xor]

/-- R103: with syndrome 0 the parity positions are those ENCN gives to the data positions. -/
theorem eq_encn_dataNibble {c : Codeword} (h : synd c = 0#3) : c = encn (dataNibble c) := by
  have h0 := synd_getLsbD_zero c
  have h1 := synd_getLsbD_one c
  have h2 := synd_getLsbD_two c
  obtain ⟨d0, d1, d2, d3⟩ := getLsbD_packNibble (posBit c 3) (posBit c 4) (posBit c 5) (posBit c 6)
  apply codewordBits_injective
  rw [codewordBits_encn, codewordBits_eq_iff, dataNibble, d0, d1, d2, d3]
  simp only [h, BitVec.getLsbD_zero] at h0 h1 h2
  refine ⟨?_, ?_, ?_, rfl, rfl, rfl, rfl⟩ <;> grind

/-! ### SLUT's mask -/

/-- R114: a mask has the syndrome that selects it. -/
@[simp] theorem synd_slut_mask : ∀ y : Syndrome, synd (slut y).mask = y := by decide

/-- R112: the syndrome of one wrong bit selects the mask of its position. -/
theorem slut_synd_unitMask {k : Nat} (h : k < 7) : (slut (synd (unitMask k))).mask = unitMask k := by
  revert k; decide

/-- R66: the entries 1 to 3 correct a parity position, so they leave the data positions. -/
theorem dataNibble_slut_mask : ∀ y : Syndrome, (slut y).idx.toNat ≤ 3 → dataNibble (slut y).mask = 0#4 := by decide

/-- Only syndrome 0 selects no correction. -/
theorem slut_mask_eq_zero_iff (y : Syndrome) : (slut y).mask = 0#7 ↔ y = 0#3 := by
  constructor
  · intro h
    rw [← synd_slut_mask y, h]
    rfl
  · rintro rfl
    rfl

/-! ### DECW -/

theorem decw_syn (c : Codeword) : (decw c).syn = synd c := rfl

theorem decw_cc (c : Codeword) : (decw c).cc = c ^^^ (slut (synd c)).mask := rfl

theorem decw_nib (c : Codeword) : (decw c).nib = dataNibble (decw c).cc := rfl

/-- R106: the corrected sequence is the codeword of the nibble returned. -/
theorem decw_cc_eq_encn (c : Codeword) : (decw c).cc = encn (decw c).nib := by
  have h : synd (decw c).cc = 0#3 := by rw [decw_cc, synd_xor, synd_slut_mask, BitVec.xor_self]
  rw [decw_nib, ← eq_encn_dataNibble h]

/-- R104: an error that its own syndrome selects in the table is removed from any codeword. -/
theorem decw_encn_xor {e : Codeword} (h : (slut (synd e)).mask = e) (n : Nibble) :
    decw (encn n ^^^ e) = ⟨n, synd e, encn n⟩ := by
  have hcc : encn n ^^^ e ^^^ (slut (synd e)).mask = encn n := by
    rw [h, BitVec.xor_assoc, BitVec.xor_self, BitVec.xor_zero]
  simp only [decw, synd_encn_xor, hcc, dataNibble_encn]

/-- R104, no bit wrong. -/
@[simp] theorem decw_encn (n : Nibble) : decw (encn n) = ⟨n, 0#3, encn n⟩ := by
  have h := decw_encn_xor (e := 0#7) rfl n
  rwa [BitVec.xor_zero] at h

/-- R104, one bit wrong. -/
theorem decw_flipPos_encn (n : Nibble) {k : Nat} (h : k < 7) :
    decw (flipPos (encn n) k) = ⟨n, synd (unitMask k), encn n⟩ :=
  decw_encn_xor (slut_synd_unitMask h) n

end Sys2Proof.Machine
end

section
/-! Unit hamming_7_4_decoder (41_decoder), the stream: DEC decodes its codewords independently (R102), ENC is the stream of
the codewords of the payload's nibbles, and a flip of the stream is a flip of one codeword. -/

namespace Sys2Proof.Machine

/-! ### DEC's two outcomes -/

/-- R102: whole codeword pairs are decoded. -/
theorem exec_dec_of_pairs {bits : Bits} (h : bits.length % 14 = 0) (s : State) :
    exec (.dec bits) s = deliver (.bytes (regroup (nibblesOf bits))) s := by
  change execDec bits s = _
  rw [execDec, dec_eq_ite, if_pos h]

/-- R102: any other length is the fault. -/
theorem exec_dec_of_not_pairs {bits : Bits} (h : bits.length % 14 ≠ 0) (s : State) :
    exec (.dec bits) s = takeFault .malformedStream s := by
  change execDec bits s = _
  rw [execDec, dec_eq_ite, if_neg h]

/-! ### Codewords, nibbles and bytes by index -/

/-- R55: codeword `m` is the slice `bits[7m ..< 7m+7]`. -/
theorem codewordOfBits_slice {bits : Bits} {m : Nat} (h : m < (codewordsOf bits).length) :
    codewordOfBits (slice bits (7 * m) (7 * m + 7)) = (codewordsOf bits)[m]? := by
  induction bits using codewordsOf.induct generalizing m with
  | case1 c0 c1 c2 c3 c4 c5 c6 rest ih =>
    rw [codewordsOf] at h ⊢
    cases m with
    | zero => simp [slice, codewordOfBits]
    | succ m =>
      have hs : slice (c0 :: c1 :: c2 :: c3 :: c4 :: c5 :: c6 :: rest) (7 * (m + 1)) (7 * (m + 1) + 7) =
          slice rest (7 * m) (7 * m + 7) := by
        simp [slice, Nat.mul_add]
      rw [hs, List.getElem?_cons_succ, ih (Nat.lt_of_succ_lt_succ h)]
  | case2 bits hshort =>
    rw [codewordsOf.eq_2 bits hshort] at h
    exact absurd h (Nat.not_lt_zero m)

/-- R102: nibble `m` is DECW's of codeword `m`. -/
theorem nibblesOf_getElem? (bits : Bits) (m : Nat) :
    (nibblesOf bits)[m]? = ((codewordsOf bits)[m]?).map fun c => (decw c).nib := by
  simp [nibblesOf]

/-- R46: byte `j` is made of nibbles `2j` and `2j + 1`. -/
theorem regroup_getElem? {ns : List Nibble} {j : Nat} {a b : Nibble} (ha : ns[2 * j]? = some a)
    (hb : ns[2 * j + 1]? = some b) : (regroup ns)[j]? = some (joinNibbles a b) := by
  induction ns using regroup.induct generalizing j with
  | case1 u v rest ih =>
    cases j with
    | zero => simp_all [regroup]
    | succ j => exact ih ha hb
  | case2 ns h =>
    match ns, h with
    | [_], _ => simp at hb
    | u :: v :: rest, h => exact absurd rfl (h u v rest)

/-- R41, R68: `16 * first + second`. -/
theorem joinNibbles_toNat (a b : Nibble) : (joinNibbles a b).toNat = 16 * a.toNat + b.toNat := by
  have ha := a.isLt
  have hb := b.isLt
  rw [joinNibbles, BitVec.toNat_ofNat]
  omega

/-- R41: a byte is joined again from its two nibbles. -/
@[simp] theorem joinNibbles_high_low (B : Byte) : joinNibbles (highNibble B) (lowNibble B) = B := by
  have hB := B.isLt
  apply BitVec.eq_of_toNat_eq
  rw [joinNibbles_toNat, highNibble, lowNibble, BitVec.toNat_ofNat, BitVec.toNat_ofNat]
  omega

/-! ### ENC as a stream of codewords -/

/-- The nibbles of a payload in the order ENC processes them (R91); `enc_eq_streamOf` ties it to ENC. -/
def payloadNibbles (x : List Byte) : List Nibble := x.flatMap fun B => [highNibble B, lowNibble B]

@[simp] theorem payloadNibbles_cons (B : Byte) (x : List Byte) :
    payloadNibbles (B :: x) = highNibble B :: lowNibble B :: payloadNibbles x := rfl

@[simp] theorem payloadNibbles_length (x : List Byte) : (payloadNibbles x).length = 2 * x.length := by
  simp [payloadNibbles, List.length_flatMap, Nat.mul_comm]

/-- R46, R91: regrouping undoes the split into nibbles. -/
@[simp] theorem regroup_payloadNibbles (x : List Byte) : regroup (payloadNibbles x) = x := by
  induction x with
  | nil => rfl
  | cons B x ih => rw [payloadNibbles_cons, regroup, joinNibbles_high_low, ih]

/-- R43, R91: ENC writes the codewords of the payload's nibbles one after the other. -/
theorem enc_eq_streamOf (x : List Byte) : enc x = streamOf ((payloadNibbles x).map encn) := by
  induction x with
  | nil => rfl
  | cons B x ih =>
    rw [enc, ih, payloadNibbles_cons, List.map_cons, List.map_cons, streamOf, streamOf, List.append_assoc]

@[simp] theorem streamOf_length (cs : List Codeword) : (streamOf cs).length = 7 * cs.length := by
  induction cs with
  | nil => rfl
  | cons c cs ih => rw [streamOf, List.length_append, codewordBits_length, ih, List.length_cons]; omega

/-- R102: DEC gives back the payload from any stream whose codewords decode to the payload's nibbles. -/
theorem exec_dec_streamOf {cs : List Codeword} {x : List Byte} (h : cs.map (fun c => (decw c).nib) = payloadNibbles x)
    (s : State) : exec (.dec (streamOf cs)) s = deliver (.bytes x) s := by
  have hl : cs.length = 2 * x.length := by rw [← payloadNibbles_length, ← h, List.length_map]
  rw [exec_dec_of_pairs (by rw [streamOf_length, hl]; omega), nibblesOf, codewordsOf_streamOf, h, regroup_payloadNibbles]

/-! ### A flip of the stream -/

theorem flipAt_append (s t : Bits) (i : Nat) :
    flipAt (s ++ t) i = if i < s.length then flipAt s i ++ t else s ++ flipAt t (i - s.length) := by
  induction s generalizing i with
  | nil => simp
  | cons b s ih =>
    cases i with
    | zero => simp [flipAt]
    | succ i =>
      simp only [List.cons_append, flipAt, ih, List.length_cons, Nat.add_lt_add_iff_right, Nat.add_sub_add_right]
      split <;> rfl

/-- R44: the unit mask of position `k` has its one 1 there. -/
theorem posBit_unitMask : ∀ k < 7, ∀ j < 7, posBit (unitMask k) j = decide (j = k) := by
  decide

/-- R44: a flip of a codeword's sequence is the ⊕ with its unit mask. -/
theorem flipAt_codewordBits (c : Codeword) {k : Nat} (h : k < 7) :
    flipAt (codewordBits c) k = codewordBits (flipPos c k) := by
  interval_cases k <;> simp [codewordBits, flipAt, flipPos, posBit_unitMask]

/-- R45: stream position `i` is position `i mod 7` of codeword `i / 7`. -/
theorem flipAt_streamOf (cs : List Codeword) (i : Nat) :
    flipAt (streamOf cs) i = streamOf (cs.modify (i / 7) fun c => flipPos c (i % 7)) := by
  induction cs generalizing i with
  | nil => simp [streamOf, flipAt]
  | cons c cs ih =>
    rw [streamOf, flipAt_append, codewordBits_length]
    split
    case isTrue h =>
      rw [flipAt_codewordBits c h, Nat.div_eq_of_lt h, Nat.mod_eq_of_lt h, List.modify_zero_cons, streamOf]
    case isFalse h =>
      obtain ⟨j, rfl⟩ : ∃ j, i = j + 7 := ⟨i - 7, by omega⟩
      rw [Nat.add_sub_cancel, ih, Nat.add_div_right j (by decide), Nat.add_mod_right, List.modify_succ_cons, streamOf]

/-- R104: the codewords of nibbles decode to them. -/
@[simp] theorem nib_map_encn (ns : List Nibble) : (ns.map encn).map (fun c => (decw c).nib) = ns := by
  induction ns with
  | nil => rfl
  | cons n ns ih => rw [List.map_cons, List.map_cons, ih, decw_encn]

/-- R104: one wrong bit in one of the codewords changes no nibble. -/
theorem nib_map_modify_flipPos (ns : List Nibble) (m : Nat) {k : Nat} (h : k < 7) :
    ((ns.map encn).modify m fun c => flipPos c k).map (fun c => (decw c).nib) = ns := by
  induction ns generalizing m with
  | nil => simp
  | cons n ns ih =>
    cases m with
    | zero => rw [List.map_cons, List.modify_zero_cons, List.map_cons, nib_map_encn, decw_flipPos_encn n h]
    | succ m => rw [List.map_cons, List.modify_succ_cons, List.map_cons, ih, decw_encn]

/-! ### The obligations of the decoder -/

/-- Settles O27: the codewords of ENC's stream decode to the payload's nibbles. -/
theorem decUndoesEnc : Obligations.DecUndoesEnc := by
  intro x s
  refine ⟨enc x, exec_enc x s, ?_⟩
  rw [enc_eq_streamOf, exec_dec_streamOf (nib_map_encn (payloadNibbles x)), deliver_eq]

/-- Settles O13: byte `j` is the join of the nibbles of codewords `2j` and `2j + 1`, which are slices of the stream. -/
theorem decAnswersBytesOrMalformed : Obligations.DecAnswersBytesOrMalformed := by
  intro bits s
  refine ⟨rfl, fun h7 h2 => ?_, fun hbad => exec_dec_of_not_pairs (by omega) s⟩
  have hl : (regroup (nibblesOf bits)).length = bits.length / 7 / 2 := by simp [nibblesOf]
  refine ⟨regroup (nibblesOf bits), exec_dec_of_pairs (by omega) s, hl, fun j hj => ?_⟩
  have hlt : 2 * j < (codewordsOf bits).length ∧ 2 * j + 1 < (codewordsOf bits).length := by
    rw [codewordsOf_length]; omega
  obtain ⟨a, ha⟩ : ∃ a, (codewordsOf bits)[2 * j]? = some a := ⟨_, List.getElem?_eq_getElem hlt.1⟩
  obtain ⟨b, hb⟩ : ∃ b, (codewordsOf bits)[2 * j + 1]? = some b := ⟨_, List.getElem?_eq_getElem hlt.2⟩
  have hbyte : (regroup (nibblesOf bits))[j]? = some (joinNibbles (decw a).nib (decw b).nib) :=
    regroup_getElem? (by rw [nibblesOf_getElem?, ha]; rfl) (by rw [nibblesOf_getElem?, hb]; rfl)
  refine ⟨a, b, ?_, ?_, ?_⟩
  · rw [codewordOfBits_slice hlt.1, ha]
  · rw [codewordOfBits_slice hlt.2, hb]
  · rw [hbyte, Option.map_some, joinNibbles_toNat]

/-- Settles O24: a flip of the stream is a flip of one of its codewords, which DECW removes. -/
theorem oneErrorIsCorrected : Obligations.OneErrorIsCorrected := by
  refine ⟨fun n k hk => ?_, fun x i s _ => ?_⟩
  · simp [decw_flipPos_encn n hk]
  · have h := nib_map_modify_flipPos (payloadNibbles x) (i / 7) (Nat.mod_lt i (by decide : 0 < 7))
    rw [enc_eq_streamOf, flipAt_streamOf, exec_dec_streamOf h, deliver_eq]

/-- Settles O6: the three equations, and linearity with syndrome 0 on the valid codewords. -/
theorem syndAnswersThreeEquations : Obligations.SyndAnswersThreeEquations := by
  intro c e n s
  exact ⟨rfl, ⟨synd c, exec_synd c s, synd_getLsbD_zero c, synd_getLsbD_one c, synd_getLsbD_two c⟩, synd_xor c e,
    synd_encn_xor n e⟩

/-- Settles O10: DECW's result is that of SYND and SLUT; the corner cases are facts about the table's mask. -/
theorem decwCorrectsByTheTable : Obligations.DecwCorrectsByTheTable := by
  intro c s
  refine ⟨rfl, decw c, slut (synd c), exec_decw c s, rfl, rfl, ?_, ?_, ?_, ?_, decw_cc_eq_encn c⟩
  · intro k _
    rw [decw_cc, posBit_xor]
  · rw [decw_nib, dataNibble, packNibble_toNat]
  · have hcc : (decw c).cc = c ↔ synd c = 0#3 := by simp [decw_cc, slut_mask_eq_zero_iff]
    simp [Decoded.corrected, decw_syn, hcc]
  · intro hidx
    rw [decw_nib, decw_cc, dataNibble_xor, dataNibble_slut_mask _ hidx, BitVec.xor_zero]

end Sys2Proof.Machine
end

section
/-! Unit syndrome_lookup_table (42_syndrome_lut): SLUT answers the table's entry, and the mask with its single 1 at the
position that the entry names. -/

namespace Sys2Proof.Machine

/-- R110: the index of a syndrome is its entry of the table, written as a list. -/
theorem table_getElem?_toNat :
    ∀ y : Syndrome, ([0, 3, 2, 5, 1, 7, 4, 6])[y.toNat]? = some (slutIndex y).toNat := by decide

/-- R66: as a sequence, the mask of an index has its single 1 at position `i - 1`, and none for index 0. -/
theorem codewordBits_indexMask (i : Index) :
    codewordBits (indexMask i) =
      if i = 0#3 then List.replicate 7 false else flipAt (List.replicate 7 false) (i.toNat - 1) := by
  rw [indexMask]
  split
  case isTrue => rfl
  case isFalse =>
    have hk : i.toNat - 1 < 7 := by have := i.isLt; omega
    have hflip : flipPos 0#7 (i.toNat - 1) = unitMask (i.toNat - 1) := BitVec.zero_xor
    rw [← hflip, ← flipAt_codewordBits 0#7 hk]
    rfl

/-- Settles O7: the table's entry for every syndrome, and the mask of an index as a sequence. -/
theorem slutAnswersTheTable : Obligations.SlutAnswersTheTable := by
  intro y s
  exact ⟨rfl, slut y, exec_slut y s, table_getElem?_toNat y, codewordBits_indexMask (slutIndex y)⟩

end Sys2Proof.Machine
end

section
/-! Unit bit_error_injector (43_bit_error_injector): INJ is the identity or one flip, by `fire`, and it completes exactly
on the possible draws. -/

namespace Sys2Proof.Machine

/-! ### INJ without and with a flip -/

/-- R120: "otherwise return the stream unchanged". -/
@[simp] theorem inj_false (bits : Bits) (pos : Nat) : inj bits false pos = bits := rfl

/-- R120: with `fire`, the flip of position `pos`. -/
@[simp] theorem inj_true (bits : Bits) (pos : Nat) : inj bits true pos = flipAt bits pos := rfl

/-- R124: the positions where result and operand differ are 0 or 1. -/
theorem streamDistance_inj_le_one (bits : Bits) (fire : Bool) (pos : Nat) :
    streamDistance (inj bits fire pos) bits ≤ 1 := by
  cases fire with
  | false => simp
  | true =>
    rw [inj_true, streamDistance_flipAt]
    split <;> decide

/-! ### When INJ completes -/

/-- R121: for `p` in its range, the well-formed draws are those `p` and the length allow. -/
theorem wf_inj_num_iff {bits : Bits} {p : Rat} {fire : Bool} {pos : Nat} (h0 : 0 ≤ p) (h1 : p ≤ 1) :
    (Instr.inj bits (.num p) fire pos).wf = true ↔ if fire then 0 < p ∧ pos < bits.length else p < 1 := by
  cases fire <;> simp [Instr.wf, inUnitRange, allowsDraw, h0, h1]

/-- An INJ that completes delivers its stream and leaves the rest of the state (R120). -/
theorem eq_of_exec_inj {bits : Bits} {p : Prob} {fire : Bool} {pos : Nat} {s t : State}
    (h : exec (.inj bits p fire pos) s = .next t) :
    t = { s with completion := some (.ok (.stream (inj bits fire pos))) } := by
  cases hwf : (Instr.inj bits p fire pos).wf with
  | true =>
    rw [exec_inj_of_wf hwf, deliver_eq] at h
    exact (Host.Outcome.next.inj h).symm
  | false =>
    obtain ⟨r, hr⟩ := exec_inj_of_not_wf hwf s
    rw [hr] at h
    cases h

/-! ### The obligations of the injector -/

/-- Settles O14: a possible draw is well formed, and the result is the operand or its flip at `pos`. -/
theorem injFlipsThePositionDrawn : Obligations.InjFlipsThePositionDrawn := by
  intro bits p fire pos s h0 h1
  refine ⟨rfl, fun hp => ?_, fun hp hpos => ?_⟩
  · have hwf : (Instr.inj bits (.num p) false pos).wf = true := (wf_inj_num_iff h0 h1).mpr hp
    rw [exec_inj_of_wf hwf, inj_false, deliver_eq]
  · have hwf : (Instr.inj bits (.num p) true pos).wf = true := (wf_inj_num_iff h0 h1).mpr ⟨hp, hpos⟩
    refine ⟨flipAt bits pos, ?_, flipAt_length bits pos, ?_, fun i hi => ?_⟩
    · rw [exec_inj_of_wf hwf, inj_true, deliver_eq]
    · rw [flipAt_getElem?, if_pos rfl]
    · rw [flipAt_getElem?, if_neg hi]

/-- Settles O16: whatever the draws, what is delivered is `inj` of the operand, which differs from it by one flip or none. -/
theorem injChangesAtMostOneBit : Obligations.InjChangesAtMostOneBit := by
  intro bits p fire pos s t h
  exact ⟨inj bits fire pos, eq_of_exec_inj h, inj_length bits fire pos, streamDistance_inj_le_one bits fire pos⟩

end Sys2Proof.Machine
end

section
/-! Unit hamming_7_4 (44_frame_loss_and_attempt): the draws the two descriptions of an attempt take, in their order. -/

namespace Sys2Proof.Machine

/-! ### The draws of the attempt's lines -/

/-- R137: INJ's draws and then LOSE's are the draws of the attempt in order. -/
theorem injDrawList_append_lose (d : AttemptDraws) : injDrawList d.fire d.pos ++ [.lose d.lose] = d.inOrder := by
  unfold injDrawList AttemptDraws.inOrder
  split <;> rfl

/-- Only INJ and LOSE take draws, and INJ stands before LOSE. -/
theorem draws_attemptProgram (x : List Byte) (c : Config.Cfg) (d : AttemptDraws) :
    (attemptProgram x c d).flatMap Line.draws = d.inOrder := by
  rw [← injDrawList_append_lose]
  rfl

/-- With the loss decision first, the DEC that may follow it takes no draw (C4). -/
theorem draws_attemptLossFirst (x : List Byte) (c : Config.Cfg) (d : AttemptDraws) :
    (attemptLossFirst x c d).flatMap Line.draws = d.inOrder := by
  have hdec : (if d.lose then [] else [decLine]).flatMap Line.draws = [] := by split <;> rfl
  rw [attemptLossFirst, List.flatMap_append, hdec, List.append_nil, ← injDrawList_append_lose]
  rfl

/-! ### The obligation -/

/-- Settles O52: the draws of either order's lines are `AttemptDraws.inOrder`. -/
theorem attemptTakesDrawsInOrder : Obligations.AttemptTakesDrawsInOrder := by
  intro x c d
  exact ⟨draws_attemptProgram x c d, (draws_attemptLossFirst x c d).trans (draws_attemptProgram x c d).symm⟩

end Sys2Proof.Machine
end

section
/-! The failure results of the operations (60_exceptions): an operation that completes delivers a result, or it is a DEC
whose length is not that of whole codeword pairs. -/

namespace Sys2Proof.Machine

/-! ### How an operation can complete -/

/-- A delivery that answers `t` leaves all but the completion (R146). -/
theorem eq_of_deliver {r : Result} {s t : State} (h : deliver r s = .next t) :
    t = { s with completion := some (.ok r) } := by
  cases h
  rfl

/-- A LOSE that completes delivers its draw and leaves the rest of the state (R130). -/
theorem eq_of_exec_lose {q : Prob} {lost : Bool} {s t : State} (h : exec (.lose q lost) s = .next t) :
    t = { s with completion := some (.ok (.lost lost)) } := by
  cases hwf : (Instr.lose q lost).wf with
  | true => exact eq_of_deliver (exec_lose_of_wf hwf s ▸ h)
  | false =>
    obtain ⟨r, hr⟩ := exec_lose_of_not_wf hwf s
    rw [hr] at h
    cases h

/-- R146: a fault is the whole result of the operation that detects it. R141: it is a DEC, with `len(bits) mod 14 ≠ 0`. -/
theorem exec_next_cases {i : Instr} {s t : State} (h : exec i s = .next t) :
    (∃ r, t = { s with completion := some (.ok r) }) ∨
      ∃ bits, i = .dec bits ∧ bits.length % 14 ≠ 0 ∧ t = { s with completion := some (.fault .malformedStream) } := by
  cases i with
  | encn n => exact .inl ⟨_, eq_of_deliver h⟩
  | enc x => exact .inl ⟨_, eq_of_deliver h⟩
  | synd c => exact .inl ⟨_, eq_of_deliver h⟩
  | decw c => exact .inl ⟨_, eq_of_deliver h⟩
  | slut y => exact .inl ⟨_, eq_of_deliver h⟩
  | inj bits p fire pos => exact .inl ⟨_, eq_of_exec_inj h⟩
  | lose q lost => exact .inl ⟨_, eq_of_exec_lose h⟩
  | dec bits =>
    by_cases hl : bits.length % 14 = 0
    · exact .inl ⟨_, eq_of_deliver (exec_dec_of_pairs hl s ▸ h)⟩
    · rw [exec_dec_of_not_pairs hl] at h
      exact .inr ⟨bits, rfl, hl, (Host.Outcome.next.inj h).symm⟩

/-- R141: only DEC faults, by the length of its operand and with the one fault. -/
theorem eq_dec_of_exec_fault {i : Instr} {s t : State} {f : Fault} (h : exec i s = .next t)
    (hf : t.completion = some (.fault f)) : ∃ bits, i = .dec bits ∧ bits.length % 14 ≠ 0 ∧ f = .malformedStream := by
  obtain ⟨r, rfl⟩ | ⟨bits, hi, hl, rfl⟩ := exec_next_cases h
  · cases hf
  · cases hf
    exact ⟨bits, hi, hl, rfl⟩

/-- R141, for DEC itself: the contents of the stream do not matter. -/
theorem exec_dec_eq_fault_iff (bits : Bits) (s : State) :
    exec (.dec bits) s = .next { s with completion := some (.fault .malformedStream) } ↔ bits.length % 14 ≠ 0 := by
  constructor
  · intro h
    obtain ⟨_, hi, hl, -⟩ := eq_dec_of_exec_fault h rfl
    cases hi
    exact hl
  · intro hl
    exact exec_dec_of_not_pairs hl s

/-! ### The stream that reaches DEC inside an attempt -/

/-- R91: ENC makes 14 bits of each byte. -/
theorem enc_length (x : List Byte) : (enc x).length = 14 * x.length := by
  rw [enc_eq_streamOf, streamOf_length, List.length_map, payloadNibbles_length]
  omega

/-- An operation that answers on the interface completed, from reset, with that answer. -/
theorem exec_reset_of_answer {i : Instr} {c : Completion} (h : answer i = some c) :
    ∃ t, exec i State.reset = .next t ∧ t.completion = some c := by
  unfold answer at h
  split at h
  next t ht => exact ⟨t, ht, h⟩
  next => cases h
  next => cases h

/-- R120: the result of an INJ "has the length of the operand". -/
theorem length_of_answer_inj {bits out : Bits} {p : Prob} {fire : Bool} {pos : Nat}
    (h : answer (.inj bits p fire pos) = some (.ok (.stream out))) : out.length = bits.length := by
  obtain ⟨t, ht, hc⟩ := exec_reset_of_answer h
  rw [eq_of_exec_inj ht] at hc
  cases hc
  exact inj_length bits fire pos

/-! ### The obligation -/

/-- Settles O21: every completion is a result or DEC's fault, and ENC and INJ make streams of whole codeword pairs. -/
theorem onlyDecFaultsByLength : Obligations.OnlyDecFaultsByLength := by
  refine ⟨fun i s t f => eq_dec_of_exec_fault, fun a b s hab => ?_, fun bits s => (exec_dec_eq_fault_iff bits s).mpr,
    fun x p fire pos out s t hinj hdec hfault => ?_⟩
  · rw [exec_dec_eq_fault_iff, exec_dec_eq_fault_iff, hab]
  · have hout : out.length = 14 * x.length := (length_of_answer_inj hinj).trans (enc_length x)
    obtain ⟨_, hi, hl, -⟩ := eq_dec_of_exec_fault hdec hfault
    cases hi
    omega

end Sys2Proof.Machine
end

section
/-! The command format (30_encoding R71, R75): decoding and encoding undo one another, up to INJ's unused `pos`. -/

namespace Sys2Proof

open Machine

/-! ### A codeword as seven bits -/

/-- R63: a codeword's own seven bits are read as that codeword. -/
@[simp] theorem codewordOfBits_codewordBits (c : Codeword) : codewordOfBits (codewordBits c) = some c :=
  congrArg some (packCodeword_posBit c)

/-! ### What each operation's decoder accepts -/

theorem decodeEncn_ok {d : List Draw} {v : List Value} {i : Instr} (h : decodeEncn d v = .ok i) :
    ∃ n : Nibble, i = .encn n ∧ v = [.num n.toNat] ∧ d = [] := by
  unfold decodeEncn at h
  split at h
  next n =>
    split at h
    next hn =>
      obtain ⟨rfl, rfl⟩ := withoutDraws_ok h
      exact ⟨_, rfl, by rw [BitVec.toNat_ofNat, Nat.mod_eq_of_lt hn], rfl⟩
    next => cases h
  next => cases h

theorem decodeEnc_ok {d : List Draw} {v : List Value} {i : Instr} (h : decodeEnc d v = .ok i) :
    ∃ x : List Byte, i = .enc x ∧ v = [.bytes x] ∧ d = [] := by
  unfold decodeEnc at h
  split at h
  next x =>
    obtain ⟨rfl, rfl⟩ := withoutDraws_ok h
    exact ⟨x, rfl, rfl, rfl⟩
  next => cases h

theorem decodeSynd_ok {d : List Draw} {v : List Value} {i : Instr} (h : decodeSynd d v = .ok i) :
    ∃ c : Codeword, i = .synd c ∧ v = [.bits (codewordBits c)] ∧ d = [] := by
  unfold decodeSynd at h
  split at h
  next s =>
    split at h
    next c hc =>
      obtain ⟨rfl, rfl⟩ := withoutDraws_ok h
      exact ⟨c, rfl, by rw [codewordBits_of_codewordOfBits hc], rfl⟩
    next => cases h
  next => cases h

theorem decodeDecw_ok {d : List Draw} {v : List Value} {i : Instr} (h : decodeDecw d v = .ok i) :
    ∃ c : Codeword, i = .decw c ∧ v = [.bits (codewordBits c)] ∧ d = [] := by
  unfold decodeDecw at h
  split at h
  next s =>
    split at h
    next c hc =>
      obtain ⟨rfl, rfl⟩ := withoutDraws_ok h
      exact ⟨c, rfl, by rw [codewordBits_of_codewordOfBits hc], rfl⟩
    next => cases h
  next => cases h

theorem decodeDec_ok {d : List Draw} {v : List Value} {i : Instr} (h : decodeDec d v = .ok i) :
    ∃ s : Bits, i = .dec s ∧ v = [.bits s] ∧ d = [] := by
  unfold decodeDec at h
  split at h
  next s =>
    obtain ⟨rfl, rfl⟩ := withoutDraws_ok h
    exact ⟨s, rfl, rfl, rfl⟩
  next => cases h

theorem decodeSlut_ok {d : List Draw} {v : List Value} {i : Instr} (h : decodeSlut d v = .ok i) :
    ∃ y : Syndrome, i = .slut y ∧ v = [.num y.toNat] ∧ d = [] := by
  unfold decodeSlut at h
  split at h
  next n =>
    split at h
    next hn =>
      obtain ⟨rfl, rfl⟩ := withoutDraws_ok h
      exact ⟨_, rfl, by rw [BitVec.toNat_ofNat, Nat.mod_eq_of_lt hn], rfl⟩
    next => cases h
  next => cases h

/-- R29: INJ's `pos` may be left out with `fire` false. -/
theorem decodeInj_ok {d : List Draw} {v : List Value} {i : Instr} (h : decodeInj d v = .ok i) :
    ∃ (s : Bits) (p : Prob) (f : Bool) (n : Nat), i = .inj s p f n ∧ v = [.bits s, .prob p] ∧
      (d = [.fire f, .pos n] ∨ f = false ∧ n = 0 ∧ d = [.fire false]) := by
  unfold decodeInj at h
  split at h
  next s p =>
    split at h
    next f n =>
      cases h
      exact ⟨s, p, f, n, rfl, rfl, .inl rfl⟩
    next =>
      cases h
      exact ⟨s, p, false, 0, rfl, rfl, .inr ⟨rfl, rfl, rfl⟩⟩
    next => cases h
  next => cases h

theorem decodeLose_ok {d : List Draw} {v : List Value} {i : Instr} (h : decodeLose d v = .ok i) :
    ∃ (q : Prob) (b : Bool), i = .lose q b ∧ v = [.prob q] ∧ d = [.lose b] := by
  unfold decodeLose at h
  split at h
  next q =>
    split at h
    next b =>
      cases h
      exact ⟨q, b, rfl, rfl, rfl⟩
    next => cases h
  next => cases h

/-! ### The obligations of the command format -/

/-- Settles O35: by operation; a number's width and a codeword's length are those its decoder asks for. -/
theorem decodeUndoesEncode : Obligations.DecodeUndoesEncode := by
  intro i
  cases i with
  | encn n =>
    change decodeEncn [] [.num n.toNat] = _
    rw [decodeEncn, if_pos n.isLt, BitVec.ofNat_toNat, BitVec.setWidth_eq, withoutDraws_nil]
  | enc x => rfl
  | synd c =>
    change decodeSynd [] [.bits (codewordBits c)] = _
    simp only [decodeSynd, codewordOfBits_codewordBits, withoutDraws_nil]
  | decw c =>
    change decodeDecw [] [.bits (codewordBits c)] = _
    simp only [decodeDecw, codewordOfBits_codewordBits, withoutDraws_nil]
  | dec s => rfl
  | slut y =>
    change decodeSlut [] [.num y.toNat] = _
    rw [decodeSlut, if_pos y.isLt, BitVec.ofNat_toNat, BitVec.setWidth_eq, withoutDraws_nil]
  | inj s p f n => rfl
  | lose q b => rfl

/-- Settles O36: by op code, from what its decoder accepts. -/
theorem decodedOperationIsTheTransaction : Obligations.DecodedOperationIsTheTransaction := by
  rintro ⟨op, v, d⟩ i h
  obtain rfl | rfl | rfl | rfl | rfl | rfl | rfl | rfl := opCode_cases op
  · obtain ⟨n, rfl, rfl, rfl⟩ := decodeEncn_ok h
    exact ⟨rfl, rfl, .inl rfl⟩
  · obtain ⟨x, rfl, rfl, rfl⟩ := decodeEnc_ok h
    exact ⟨rfl, rfl, .inl rfl⟩
  · obtain ⟨c, rfl, rfl, rfl⟩ := decodeSynd_ok h
    exact ⟨rfl, rfl, .inl rfl⟩
  · obtain ⟨c, rfl, rfl, rfl⟩ := decodeDecw_ok h
    exact ⟨rfl, rfl, .inl rfl⟩
  · obtain ⟨s, rfl, rfl, rfl⟩ := decodeDec_ok h
    exact ⟨rfl, rfl, .inl rfl⟩
  · obtain ⟨y, rfl, rfl, rfl⟩ := decodeSlut_ok h
    exact ⟨rfl, rfl, .inl rfl⟩
  · obtain ⟨s, p, f, n, rfl, rfl, rfl | ⟨rfl, rfl, rfl⟩⟩ := decodeInj_ok h
    · exact ⟨rfl, rfl, .inl rfl⟩
    · exact ⟨rfl, rfl, .inr ⟨s, p, rfl, rfl⟩⟩
  · obtain ⟨q, b, rfl, rfl, rfl⟩ := decodeLose_ok h
    exact ⟨rfl, rfl, .inl rfl⟩

/-- Settles O37: each word's zero operands are read back, and each written-out transaction is its operation's. -/
theorem tableWordsDecode : Obligations.TableWordsDecode :=
  ⟨by decide, rfl, rfl, rfl⟩

end Sys2Proof

namespace Sys2Proof.Machine

/-- Settles O38: both texts are read, character by character, to the four lines. -/
theorem hostTextReadsTheAttempt : Obligations.HostTextReadsTheAttempt :=
  ⟨by decide, by decide⟩

end Sys2Proof.Machine
end

section
/-! The code (30_encoding R77, 40_encoder R92, 41_decoder R103 and R106, 42_syndrome_lut R112 and R114): ENCN is linear,
and DECW answers the nibble of the one valid codeword within one position of its operand. -/

namespace Sys2Proof.Machine

/-! ### ENCN is linear -/

/-- R92 item 6, bit by bit from the three parity equations. -/
theorem encn_xor (m n : Nibble) : encn (m ^^^ n) = encn m ^^^ encn n := by
  obtain ⟨m0, m1, m2, m3, m4, m5, m6⟩ := codewordBits_eq_iff.mp (codewordBits_encn m)
  obtain ⟨n0, n1, n2, n3, n4, n5, n6⟩ := codewordBits_eq_iff.mp (codewordBits_encn n)
  apply codewordBits_injective
  rw [codewordBits_encn, eq_comm, codewordBits_eq_iff]
  simp only [posBit_xor, BitVec.getLsbD_xor, m0, m1, m2, m3, m4, m5, m6, n0, n1, n2, n3, n4, n5, n6,
    Bool.xor_assoc, Bool.xor_left_comm, and_self]

theorem encn_injective {m n : Nibble} (h : encn m = encn n) : m = n := by
  rw [← dataNibble_encn m, h, dataNibble_encn]

@[simp] theorem encn_zero : encn 0#4 = 0#7 := rfl

/-! ### Valid codewords -/

/-- R103: the valid codewords are the words of syndrome 0. -/
theorem validCodeword_iff_synd (c : Codeword) : validCodeword c ↔ synd c = 0#3 := by
  constructor
  · rintro ⟨n, rfl⟩
    exact synd_encn n
  · intro h
    exact ⟨dataNibble c, eq_encn_dataNibble h⟩

/-- DECW leaves the valid codewords, and no others, as they are (R101, R106). -/
theorem decw_cc_eq_self_iff (c : Codeword) : (decw c).cc = c ↔ validCodeword c := by
  simp [decw_cc, slut_mask_eq_zero_iff, validCodeword_iff_synd]

/-- A valid codeword whose data positions are 0 is the zero word. -/
theorem eq_zero_iff_of_synd_eq_zero {c : Codeword} (h : synd c = 0#3) : dataNibble c = 0#4 ↔ c = 0#7 := by
  constructor
  · intro hd
    rw [eq_encn_dataNibble h, hd, encn_zero]
  · rintro rfl
    rfl

/-! ### Distance -/

theorem distance_xor_left (c e : Codeword) : distance (c ^^^ e) c = distance e 0#7 := by
  rw [distance, distance, BitVec.xor_comm c e, BitVec.xor_assoc, BitVec.xor_self]

set_option maxRecDepth 4000 in
/-- R114: the masks of the table are the words with at most one 1. -/
theorem slut_mask_synd_eq_self_iff : ∀ e : Codeword, (slut (synd e)).mask = e ↔ distance e 0#7 ≤ 1 := by
  decide

/-- R106: DECW returns nibble `n` exactly for the words at most one position from `ENCN(n)`. -/
theorem decw_nib_eq_iff (c : Codeword) (n : Nibble) : (decw c).nib = n ↔ distance c (encn n) ≤ 1 := by
  obtain ⟨e, rfl⟩ : ∃ e, c = encn n ^^^ e :=
    ⟨encn n ^^^ c, by rw [← BitVec.xor_assoc, BitVec.xor_self, BitVec.zero_xor]⟩
  have hsynd : synd (e ^^^ (slut (synd e)).mask) = 0#3 := by rw [synd_xor, synd_slut_mask, BitVec.xor_self]
  calc (decw (encn n ^^^ e)).nib = n
      ↔ n ^^^ dataNibble (e ^^^ (slut (synd e)).mask) = n ^^^ 0#4 := by
        rw [decw_nib, decw_cc, synd_encn_xor, BitVec.xor_assoc, dataNibble_xor, dataNibble_encn, BitVec.xor_zero]
    _ ↔ e ^^^ (slut (synd e)).mask = 0#7 := by rw [BitVec.xor_right_inj, eq_zero_iff_of_synd_eq_zero hsynd]
    _ ↔ (slut (synd e)).mask = e := by rw [BitVec.xor_eq_zero_iff, eq_comm]
    _ ↔ distance (encn n ^^^ e) (encn n) ≤ 1 := by rw [slut_mask_synd_eq_self_iff, distance_xor_left]

/-- R92 item 7: a non-zero codeword has at least three 1s. -/
theorem three_le_distance_encn_zero : ∀ n : Nibble, n ≠ 0#4 → 3 ≤ distance (encn n) 0#7 := by
  decide

theorem three_le_distance_encn {m n : Nibble} (h : m ≠ n) : 3 ≤ distance (encn m) (encn n) := by
  have hne : n ^^^ m ≠ 0#4 := fun h0 => h (BitVec.xor_eq_zero_iff.mp h0).symm
  have hm : encn m = encn n ^^^ encn (n ^^^ m) := by
    rw [← encn_xor, ← BitVec.xor_assoc, BitVec.xor_self, BitVec.zero_xor]
  rw [hm, distance_xor_left]
  exact three_le_distance_encn_zero _ hne

/-- A correction inverts one position, or none for syndrome 0. -/
theorem distance_slut_mask : ∀ y : Syndrome, distance (slut y).mask 0#7 = if y = 0#3 then 0 else 1 := by
  decide

theorem distance_decw_cc (c : Codeword) : distance c (decw c).cc = if synd c = 0#3 then 0 else 1 := by
  rw [← distance_slut_mask (synd c), decw_cc, distance, distance, ← BitVec.xor_assoc, BitVec.xor_self, BitVec.zero_xor,
    BitVec.xor_zero]

/-- Two different positions of one codeword are two differences. -/
theorem distance_flipPos_flipPos (c : Codeword) {i j : Nat} (hi : i < 7) (hj : j < 7) (hij : i ≠ j) :
    distance (flipPos (flipPos c i) j) c = 2 := by
  have hmask : ∀ i < 7, ∀ j < 7, i ≠ j → distance (unitMask i ^^^ unitMask j) 0#7 = 2 := by decide
  rw [flipPos, flipPos, BitVec.xor_assoc, distance_xor_left, hmask i hi j hj hij]

/-! ### The syndrome of one wrong bit -/

theorem synd_unitMask : ∀ k : Fin 7, synd (unitMask k.val) = errorSyndrome k := by decide

/-- R112: 4, 2, 1, 6, 3, 7, 5, whatever the codeword. -/
theorem synd_flipPos_encn (n : Nibble) (k : Fin 7) : synd (flipPos (encn n) k.val) = errorSyndrome k := by
  rw [flipPos, synd_encn_xor, synd_unitMask]

/-- R112: every non-zero syndrome is that of one wrong bit. -/
theorem exists_errorSyndrome : ∀ y : Syndrome, y ≠ 0#3 → ∃ k, errorSyndrome k = y := by decide

theorem errorSyndrome_ne_zero : ∀ k : Fin 7, errorSyndrome k ≠ 0#3 := by decide

/-- R110: the table answers the position, counted from 1. -/
theorem slut_errorSyndrome_idx : ∀ k : Fin 7, (slut (errorSyndrome k)).idx.toNat = k.val + 1 := by decide

/-! ### The obligations of the code -/

/-- Settles O9: the table's eight arguments are 0 and the syndromes of one wrong bit, where its values are given. -/
theorem tableIsForced : Obligations.TableIsForced := by
  refine ⟨synd_flipPos_encn, fun f h0 hf => funext fun y => ?_⟩
  by_cases hy : y = 0#3
  · rw [hy, h0]
    rfl
  · obtain ⟨k, rfl⟩ := exists_errorSyndrome y hy
    have hk := hf 0#4 k
    rw [synd_flipPos_encn] at hk
    exact BitVec.eq_of_toNat_eq (hk.trans (slut_errorSyndrome_idx k).symm)

/-- Settles O8: the masks have the syndromes that select them. -/
theorem tableLaws : Obligations.TableLaws := by
  refine ⟨by decide, fun k => ?_, fun y _ => synd_slut_mask y, fun c => ?_⟩
  · rw [flipPos, BitVec.zero_xor, synd_unitMask, slut_errorSyndrome_idx]
  · rw [synd_xor, synd_slut_mask, BitVec.xor_self]

/-- Settles O11: SYND answers the syndrome. -/
theorem validCodewordIffSyndromeZero : Obligations.ValidCodewordIffSyndromeZero := by
  intro c
  rw [validCodeword_iff_synd]
  change synd c = 0#3 ↔ some (Completion.ok (.syndrome (synd c))) = _
  simp

set_option maxRecDepth 4000 in
/-- Settles O12: DECW's answer is a valid codeword at distance 0 or 1, and its nibble the only one so near. -/
theorem decwAnswersNearestCodeword : Obligations.DecwAnswersNearestCodeword := by
  refine ⟨fun c => ⟨decw c, rfl, decw_cc_eq_encn c, ?_, distance_decw_cc c, decw_nib_eq_iff c⟩, by decide⟩
  rw [decw_cc_eq_encn, synd_encn]

/-- Settles O2: the sixteen codewords are computed. -/
theorem encnTableIsTheSpecs : Obligations.EncnTableIsTheSpecs :=
  ⟨by decide, by decide⟩

/-- A check row with these bits takes the ⊕ of the positions where they are 1. -/
theorem checkBit_eq_xorAll {i : Fin 3} {r0 r1 r2 r3 r4 r5 r6 : Bit}
    (h : codewordBits (checkRow i) = [r0, r1, r2, r3, r4, r5, r6]) (c : Codeword) :
    checkBit i c = xorAll [posBit c 0 && r0, posBit c 1 && r1, posBit c 2 && r2, posBit c 3 && r3, posBit c 4 && r4,
      posBit c 5 && r5, posBit c 6 && r6] := by
  have hand : ∀ k, posBit (c &&& checkRow i) k = (posBit c k && posBit (checkRow i) k) := fun k => by simp [posBit]
  obtain ⟨h0, h1, h2, h3, h4, h5, h6⟩ := codewordBits_eq_iff.mp h
  simp only [checkBit, codewordBits, hand, h0, h1, h2, h3, h4, h5, h6]

/-- A check row selects the positions of its equation of R100. -/
theorem synd_getLsbD_eq_checkBit (c : Codeword) : ∀ i : Fin 3, (synd c).getLsbD i.val = checkBit i c
  | 0 => by
    have h : codewordBits (checkRow 0) = [false, false, true, false, true, true, true] := rfl
    exact (synd_getLsbD_zero c).trans (by simp [checkBit_eq_xorAll h, xorAll, Bool.xor_comm])
  | 1 => by
    have h : codewordBits (checkRow 1) = [false, true, false, true, true, true, false] := rfl
    exact (synd_getLsbD_one c).trans (by simp [checkBit_eq_xorAll h, xorAll, Bool.xor_comm])
  | 2 => by
    have h : codewordBits (checkRow 2) = [true, false, false, true, false, true, true] := rfl
    exact (synd_getLsbD_two c).trans (by simp [checkBit_eq_xorAll h, xorAll, Bool.xor_comm])

/-- Settles O32: by nibble, by word and by position. -/
theorem codeIsItsMatrices : Obligations.CodeIsItsMatrices :=
  ⟨by decide, synd_getLsbD_eq_checkBit, fun k => ⟨synd_unitMask k, errorSyndrome_ne_zero k⟩, by decide, by decide⟩

/-- Settles O33: both orders are the arithmetic of the fields. -/
theorem bitAndNibbleOrder : Obligations.BitAndNibbleOrder := by
  refine ⟨fun B => ⟨?_, ?_, joinNibbles_high_low B⟩, joinNibbles_toNat, fun c k => ⟨rfl, ?_, ?_, ?_⟩, rfl⟩
  · have := B.isLt
    rw [highNibble, BitVec.toNat_ofNat]
    omega
  · rw [lowNibble, BitVec.toNat_ofNat]
    omega
  · revert k; decide
  · fin_cases k <;> rfl
  · exact codewordOfBits_codewordBits c

end Sys2Proof.Machine
end

section
/-! The operations as functions of their operands and draws (20_memory R49): what an operation does in any state is what
it answers from reset, and it answers exactly when its transaction is well formed (30_encoding R73). -/

namespace Sys2Proof.Machine

/-! ### One answer for all states -/

/-- R49: a well-formed operation has one completion for all states, any other has one refusal for all states. -/
theorem exec_uniform (i : Instr) :
    (i.wf = true ∧ ∃ c, ∀ s, exec i s = .next { s with completion := some c }) ∨
      (i.wf = false ∧ ∃ r, ∀ s, exec i s = .refused r) := by
  cases i with
  | encn n => exact .inl ⟨rfl, _, exec_encn n⟩
  | enc x => exact .inl ⟨rfl, _, exec_enc x⟩
  | synd c => exact .inl ⟨rfl, _, exec_synd c⟩
  | decw c => exact .inl ⟨rfl, _, exec_decw c⟩
  | slut y => exact .inl ⟨rfl, _, exec_slut y⟩
  | dec bits =>
    by_cases h : bits.length % 14 = 0
    · exact .inl ⟨rfl, _, exec_dec_of_pairs h⟩
    · exact .inl ⟨rfl, _, exec_dec_of_not_pairs h⟩
  | inj bits p fire pos =>
    cases hwf : (Instr.inj bits p fire pos).wf with
    | true => exact .inl ⟨rfl, _, exec_inj_of_wf hwf⟩
    | false =>
      obtain ⟨r, hr⟩ := exec_inj_of_not_wf hwf State.reset
      refine .inr ⟨rfl, r, fun s => ?_⟩
      change execInj bits p fire pos _ = _ at hr ⊢
      unfold execInj at hr ⊢
      split at hr <;> [exact hr; cases hr]
  | lose q lost =>
    cases hwf : (Instr.lose q lost).wf with
    | true => exact .inl ⟨rfl, _, exec_lose_of_wf hwf⟩
    | false =>
      obtain ⟨r, hr⟩ := exec_lose_of_not_wf hwf State.reset
      refine .inr ⟨rfl, r, fun s => ?_⟩
      change execLose q lost _ = _ at hr ⊢
      unfold execLose at hr ⊢
      split at hr <;> [exact hr; cases hr]

/-- A completion in one state is the operation's answer. -/
theorem answer_of_exec {i : Instr} {c : Completion} (h : ∀ s, exec i s = .next { s with completion := some c }) :
    answer i = some c := by
  rw [answer, h]

/-- R20, R49: an operation completes with its answer, in every state, and changes nothing else. -/
theorem exec_next_iff {i : Instr} {s t : State} :
    exec i s = .next t ↔ ∃ c, answer i = some c ∧ t = { s with completion := some c } := by
  obtain ⟨-, c, hc⟩ | ⟨-, r, hr⟩ := exec_uniform i
  · rw [hc, answer_of_exec hc]
    simp [eq_comm]
  · simp [answer, hr]

theorem exec_of_answer {i : Instr} {c : Completion} (h : answer i = some c) (s : State) :
    exec i s = .next { s with completion := some c } :=
  exec_next_iff.mpr ⟨c, h, rfl⟩

/-- R73: the well-formed operations are those that answer. -/
theorem wf_iff_answer (i : Instr) : i.wf = true ↔ ∃ c, answer i = some c := by
  obtain ⟨hwf, c, hc⟩ | ⟨hwf, r, hr⟩ := exec_uniform i
  · simp [hwf, answer_of_exec hc]
  · simp [hwf, answer, hr]

/-- An operation that does not answer has one refusal for all states. -/
theorem exec_refused_of_answer_none {i : Instr} (h : answer i = none) : ∃ r, ∀ s, exec i s = .refused r := by
  obtain ⟨-, c, hc⟩ | ⟨-, r, hr⟩ := exec_uniform i
  · rw [answer_of_exec hc] at h
    cases h
  · exact ⟨r, hr⟩

/-- No operation stops the machine with a fault (R149, log 5). -/
theorem exec_ne_fault (i : Instr) (s : State) (f : Fault) : exec i s ≠ .fault f := by
  intro h
  obtain ⟨-, c, hc⟩ | ⟨-, r, hr⟩ := exec_uniform i
  · rw [hc] at h
    cases h
  · rw [hr] at h
    cases h

/-! ### The answers of INJ, LOSE and DEC -/

theorem answer_inj_iff {bits : Bits} {p : Prob} {fire : Bool} {pos : Nat} {c : Completion} :
    answer (.inj bits p fire pos) = some c ↔
      (Instr.inj bits p fire pos).wf = true ∧ c = .ok (.stream (inj bits fire pos)) := by
  constructor
  · intro h
    exact ⟨(wf_iff_answer _).mpr ⟨c, h⟩, by simpa using eq_of_exec_inj (exec_of_answer h State.reset)⟩
  · rintro ⟨hwf, rfl⟩
    exact answer_of_exec (exec_inj_of_wf hwf)

theorem answer_lose_iff {q : Prob} {lost : Bool} {c : Completion} :
    answer (.lose q lost) = some c ↔ (Instr.lose q lost).wf = true ∧ c = .ok (.lost lost) := by
  constructor
  · intro h
    exact ⟨(wf_iff_answer _).mpr ⟨c, h⟩, by simpa using eq_of_exec_lose (exec_of_answer h State.reset)⟩
  · rintro ⟨hwf, rfl⟩
    exact answer_of_exec (exec_lose_of_wf hwf)

theorem answer_dec_bytes_iff {bits : Bits} {y : List Byte} :
    answer (.dec bits) = some (.ok (.bytes y)) ↔ bits.length % 14 = 0 ∧ regroup (nibblesOf bits) = y := by
  by_cases h : bits.length % 14 = 0
  · simp [answer_of_exec (exec_dec_of_pairs h), h]
  · simp [answer_of_exec (exec_dec_of_not_pairs h), h]

/-! ### The range of a probability and its draws -/

/-- R131: for `q` in its range, the well-formed draw is one `q` allows. -/
theorem wf_lose_num_iff {q : Rat} {lost : Bool} (h0 : 0 ≤ q) (h1 : q ≤ 1) :
    (Instr.lose (.num q) lost).wf = true ↔ if lost then 0 < q else q < 1 := by
  cases lost <;> simp [Instr.wf, inUnitRange, allowsDraw, h0, h1]

/-- R127. -/
theorem exec_inj_of_not_inUnitRange {p : Prob} (h : inUnitRange p = false) (bits : Bits) (fire : Bool) (pos : Nat)
    (s : State) : exec (.inj bits p fire pos) s = .refused .probabilityOutOfRange := by
  simp [exec, execInj, injRefusal, h]

/-- R133. -/
theorem exec_lose_of_not_inUnitRange {q : Prob} (h : inUnitRange q = false) (lost : Bool) (s : State) :
    exec (.lose q lost) s = .refused .probabilityOutOfRange := by
  simp [exec, execLose, loseRefusal, h]

theorem inUnitRange_num_iff (x : Rat) : inUnitRange (.num x) = true ↔ 0 ≤ x ∧ x ≤ 1 := by
  simp [inUnitRange]

/-! ### The obligations of the operations -/

/-- Settles O19: well-formedness decides, and an empty stream has no position to flip. -/
theorem wellFormedCompletesOthersRefused : Obligations.WellFormedCompletesOthersRefused := by
  intro i s
  have hsplit : i.wf = true ↔ inContract i = true ∧ drawsPossible i = true := by
    cases i with
    | inj bits p fire pos =>
      cases bits <;> cases fire <;> simp [Instr.wf, inContract, drawsPossible, and_assoc]
    | lose q lost => simp [Instr.wf, inContract, drawsPossible]
    | encn | enc | synd | decw | dec | slut => simp [Instr.wf, inContract, drawsPossible]
  refine ⟨fun hwf => ?_, fun hwf => ?_, hsplit⟩
  · obtain ⟨c, hc⟩ := (wf_iff_answer i).mp hwf
    exact ⟨c, exec_of_answer hc s⟩
  · have hnone : answer i = none := by
      rw [Option.eq_none_iff_forall_ne_some]
      intro c hc
      rw [(wf_iff_answer i).mpr ⟨c, hc⟩] at hwf
      cases hwf
    obtain ⟨r, hr⟩ := exec_refused_of_answer_none hnone
    exact ⟨r, hr s⟩

/-- Settles O20: an operation completes with its answer in every state. -/
theorem operationsAreStateless : Obligations.OperationsAreStateless := by
  refine fun i s s' => ⟨fun t h => ?_, fun r h => ?_, exec_ne_fault i s, rfl⟩
  · obtain ⟨c, hc, rfl⟩ := exec_next_iff.mp h
    exact ⟨rfl, rfl, exec_of_answer hc s'⟩
  · obtain ⟨-, c, hc⟩ | ⟨-, r', hr⟩ := exec_uniform i
    · rw [hc] at h
      cases h
    · rw [hr] at h ⊢
      exact h

/-- Settles O23: at reset nothing is issued, and an operation answers as in any state. -/
theorem resetHoldsNothing : Obligations.ResetHoldsNothing := by
  refine ⟨rfl, rfl, rfl, rfl, step_idle rfl, fun i s t h => ?_⟩
  obtain ⟨c, hc, rfl⟩ := exec_next_iff.mp h
  exact exec_of_answer hc State.reset

/-- Settles O22: a completion is a result or DEC's fault. -/
theorem statusCodesOfCompletions : Obligations.StatusCodesOfCompletions := by
  refine ⟨rfl, fun i s t c h hc => ?_, fun i s t c h hc => ?_, fun y => rfl, rfl, fun o => ?_⟩
  · obtain ⟨r, rfl⟩ | ⟨bits, hi, -, rfl⟩ := exec_next_cases h
    · cases hc
      exact .inl ⟨rfl, rfl⟩
    · cases hc
      exact .inr ⟨rfl, rfl, bits, hi⟩
  · obtain ⟨r, rfl⟩ | ⟨bits, -, -, rfl⟩ := exec_next_cases h
    · cases hc
      exact ⟨Status.noConfusion, Status.noConfusion⟩
    · cases hc
      exact ⟨Status.noConfusion, Status.noConfusion⟩
  · cases o with
    | delivered y => exact ⟨Status.noConfusion, Status.noConfusion⟩
    | frameLost => exact ⟨Status.noConfusion, Status.noConfusion⟩

/-- Settles O15: INJ completes on the well-formed draws with the stream they give, and LOSE with its draw. -/
theorem resultsAreThePossibleOnes : Obligations.ResultsAreThePossibleOnes := by
  refine ⟨fun bits p out s h0 h1 => ?_, fun q r s h0 h1 => ?_⟩
  · have hresult : (∃ fire pos, exec (.inj bits (.num p) fire pos) s =
        .next { s with completion := some (.ok (.stream out)) }) ↔ injPossible bits p out := by
      simp only [exec_next_iff, answer_inj_iff, wf_inj_num_iff h0 h1, Bool.exists_bool, injPossible]
      simp [eq_comm, and_assoc]
    refine ⟨fun fire pos => ?_, hresult, fun hp => ?_, fun hp => ?_⟩
    · simp only [exec_next_iff, answer_inj_iff, wf_inj_num_iff h0 h1]
      simp
    · rw [hresult, hp]
      simp [injPossible]
    · rw [hresult, hp]
      simp [injPossible]
  · simp only [exec_next_iff, answer_lose_iff, wf_lose_num_iff h0 h1, Bool.exists_bool, losePossible]
    simp

/-- Settles O17: the first two checks of INJ, and the first of LOSE. -/
theorem outOfContractIsRefused : Obligations.OutOfContractIsRefused := by
  refine ⟨fun bits fire pos b s => ⟨?_, ?_, fun p hp => ?_⟩, fun p pos s h0 h1 => ⟨?_, fun hp => ?_⟩⟩
  · exact exec_inj_of_not_inUnitRange rfl bits fire pos s
  · exact exec_lose_of_not_inUnitRange rfl b s
  · have hrange : inUnitRange (.num p) = false := by
      rw [← Bool.not_eq_true, inUnitRange_num_iff]
      rintro ⟨h0, h1⟩
      rcases hp with hp | hp <;> linarith
    exact ⟨exec_inj_of_not_inUnitRange hrange bits fire pos s, exec_lose_of_not_inUnitRange hrange b s⟩
  · simp [exec, execInj, injRefusal, (inUnitRange_num_iff p).mpr ⟨h0, h1⟩]
  · exact exec_inj_of_wf (fire := false) ((wf_inj_num_iff h0 h1).mpr hp) s

/-- Settles O18: LOSE answers the draws its `q` allows, and `lose` is listed with probability `q`. -/
theorem loseAnswersItsDraw : Obligations.LoseAnswersItsDraw := by
  intro q r s h0 h1
  refine ⟨rfl, fun hr => exec_lose_of_wf ((wf_lose_num_iff h0 h1).mpr hr) s, fun t ht => ?_,
    by simp [loseLaw, prob_cons]⟩
  obtain ⟨c, hc, rfl⟩ := exec_next_iff.mp ht
  obtain ⟨hwf, rfl⟩ := answer_lose_iff.mp hc
  have hr := (wf_lose_num_iff h0 h1).mp hwf
  refine ⟨hr, rfl, ?_, ?_⟩
  · rintro rfl
    cases r with
    | false => rfl
    | true => exact absurd hr (lt_irrefl 0)
  · rintro rfl
    cases r with
    | true => rfl
    | false => exact absurd hr (lt_irrefl 1)

end Sys2Proof.Machine
end

section
/-! Streams (20_memory R43 to R46, R55): a stream of whole codewords is its codewords written one after the other, so
what ENC, INJ and DEC do to a stream is said of its codewords and nibbles. -/

namespace Sys2Proof.Machine

/-! ### A stream and its codewords -/

/-- R45: whole codewords written again give the stream back. -/
theorem streamOf_codewordsOf {s : Bits} (h : s.length % 7 = 0) : streamOf (codewordsOf s) = s := by
  induction s using codewordsOf.induct with
  | case1 c0 c1 c2 c3 c4 c5 c6 rest ih =>
    rw [codewordsOf, streamOf, ih (by simp only [List.length_cons] at h; omega), codewordBits_packCodeword]
    rfl
  | case2 s hshort =>
    have hnone : codewordsOf s = [] := codewordsOf.eq_2 s hshort
    have hlen := codewordsOf_length s
    rw [hnone, List.length_nil] at hlen
    rw [hnone, List.length_eq_zero_iff.mp (show s.length = 0 by omega), streamOf]

/-- R55: codeword `m` as a slice of its stream. -/
theorem slice_eq_codewordBits {s : Bits} {m : Nat} {c : Codeword} (h : (codewordsOf s)[m]? = some c) :
    slice s (7 * m) (7 * m + 7) = codewordBits c := by
  have hm : m < (codewordsOf s).length := (List.getElem?_eq_some_iff.mp h).1
  exact (codewordBits_of_codewordOfBits ((codewordOfBits_slice hm).trans h)).symm

/-- Whole codewords before a stream are its first codewords. -/
theorem codewordsOf_append {a : Bits} (h : a.length % 7 = 0) (b : Bits) :
    codewordsOf (a ++ b) = codewordsOf a ++ codewordsOf b := by
  have hstream : ∀ cs : List Codeword, codewordsOf (streamOf cs ++ b) = cs ++ codewordsOf b := by
    intro cs
    induction cs with
    | nil => rfl
    | cons c cs ih => rw [streamOf, List.append_assoc, codewordsOf_codewordBits_append, ih, List.cons_append]
  rw [← hstream, streamOf_codewordsOf h]

/-- R45: a flip of the stream is a flip of one codeword. -/
theorem codewordsOf_flipAt {s : Bits} (h : s.length % 7 = 0) (i : Nat) :
    codewordsOf (flipAt s i) = (codewordsOf s).modify (i / 7) fun c => flipPos c (i % 7) := by
  conv_lhs => rw [← streamOf_codewordsOf h]
  rw [flipAt_streamOf, codewordsOf_streamOf]

/-- Streams of codewords differ where the codewords do. -/
theorem streamDistance_codewordBits (c d : Codeword) :
    streamDistance (codewordBits c) (codewordBits d) = distance c d := by
  simp [codewordBits, streamDistance, distance, ones]

/-! ### The nibbles of bytes -/

@[simp] theorem highNibble_joinNibbles (a b : Nibble) : highNibble (joinNibbles a b) = a := by
  apply BitVec.eq_of_toNat_eq
  have := a.isLt
  have := b.isLt
  rw [highNibble, joinNibbles_toNat, BitVec.toNat_ofNat]
  omega

@[simp] theorem lowNibble_joinNibbles (a b : Nibble) : lowNibble (joinNibbles a b) = b := by
  apply BitVec.eq_of_toNat_eq
  have := b.isLt
  rw [lowNibble, joinNibbles_toNat, BitVec.toNat_ofNat]
  omega

/-- R46: an even number of nibbles is regrouped without loss. -/
theorem payloadNibbles_regroup : ∀ {ns : List Nibble}, ns.length % 2 = 0 → payloadNibbles (regroup ns) = ns
  | [], _ => rfl
  | [_], h => by simp at h
  | a :: b :: rest, h => by
    rw [regroup, payloadNibbles_cons, highNibble_joinNibbles, lowNibble_joinNibbles,
      payloadNibbles_regroup (by simp only [List.length_cons] at h; omega)]

theorem regroup_append : ∀ {a : List Nibble}, a.length % 2 = 0 → ∀ b, regroup (a ++ b) = regroup a ++ regroup b
  | [], _, _ => rfl
  | [_], h, _ => by simp at h
  | u :: v :: rest, h, b => by
    rw [List.cons_append, List.cons_append, regroup, regroup, List.cons_append,
      regroup_append (by simp only [List.length_cons] at h; omega)]

/-- R43: byte `j` gives nibbles `2j` and `2j + 1`. -/
theorem payloadNibbles_getElem? {x : List Byte} {j : Nat} {B : Byte} (h : x[j]? = some B) :
    (payloadNibbles x)[2 * j]? = some (highNibble B) ∧ (payloadNibbles x)[2 * j + 1]? = some (lowNibble B) := by
  induction x generalizing j with
  | nil => cases h
  | cons C x ih =>
    cases j with
    | zero =>
      cases h
      exact ⟨rfl, rfl⟩
    | succ j => exact ih h

theorem nibblesOf_length (bits : Bits) : (nibblesOf bits).length = bits.length / 7 := by
  simp [nibblesOf]

/-! ### ENC's stream -/

/-- R91: the codewords of an encoding are those of the payload's nibbles. -/
@[simp] theorem codewordsOf_enc (x : List Byte) : codewordsOf (enc x) = (payloadNibbles x).map encn := by
  rw [enc_eq_streamOf, codewordsOf_streamOf]

@[simp] theorem nibblesOf_enc (x : List Byte) : nibblesOf (enc x) = payloadNibbles x := by
  rw [nibblesOf, codewordsOf_enc, nib_map_encn]

theorem enc_length_mod_seven (x : List Byte) : (enc x).length % 7 = 0 := by
  rw [enc_length]
  omega

/-- R92 item 4. -/
theorem enc_append (x y : List Byte) : enc (x ++ y) = enc x ++ enc y := by
  simp only [enc_eq_flatMap, List.flatMap_append]

theorem enc_injective {x y : List Byte} (h : enc x = enc y) : x = y := by
  rw [← regroup_payloadNibbles x, ← nibblesOf_enc, h, nibblesOf_enc, regroup_payloadNibbles]

theorem validCodeword_of_mem_enc {x : List Byte} {c : Codeword} (h : c ∈ codewordsOf (enc x)) : validCodeword c := by
  rw [codewordsOf_enc] at h
  obtain ⟨n, -, rfl⟩ := List.mem_map.mp h
  exact ⟨n, rfl⟩

/-! ### DEC of a stream as long as an encoding -/

/-- R102, R104: a stream as long as the encoding, with the payload's nibbles, is decoded to the payload. -/
theorem exec_dec_of_nibbles {x : List Byte} {t : Bits} (hlen : t.length = (enc x).length)
    (h : nibblesOf t = payloadNibbles x) (s : State) : exec (.dec t) s = deliver (.bytes x) s := by
  rw [exec_dec_of_pairs (by rw [hlen, enc_length]; omega), h, regroup_payloadNibbles]

/-- The codeword and the nibble at index `m` of a stream as long as the encoding. -/
theorem exists_codeword_and_nibble {x : List Byte} {t : Bits} {m : Nat} (hlen : t.length = (enc x).length)
    (hm : m < 2 * x.length) : ∃ c n, (codewordsOf t)[m]? = some c ∧ (payloadNibbles x)[m]? = some n := by
  refine ⟨_, _, List.getElem?_eq_getElem ?_, List.getElem?_eq_getElem (by simpa using hm)⟩
  rw [codewordsOf_length, hlen, enc_length]
  omega

/-- The differences of a stream from the encoding within one codeword. -/
theorem streamDistance_slice_enc {x : List Byte} {t : Bits} {m : Nat} {c : Codeword} {n : Nibble}
    (hc : (codewordsOf t)[m]? = some c) (hn : (payloadNibbles x)[m]? = some n) :
    streamDistance (slice t (7 * m) (7 * m + 7)) (slice (enc x) (7 * m) (7 * m + 7)) = distance c (encn n) := by
  have hn' : (codewordsOf (enc x))[m]? = some (encn n) := by simp [hn]
  rw [slice_eq_codewordBits hc, slice_eq_codewordBits hn', streamDistance_codewordBits]

/-- R105: one codeword decoded to a wrong nibble makes the bytes wrong. -/
theorem regroup_nibblesOf_ne {x : List Byte} {t : Bits} {m : Nat} {c : Codeword} {n : Nibble}
    (hlen : t.length = (enc x).length) (hc : (codewordsOf t)[m]? = some c) (hn : (payloadNibbles x)[m]? = some n)
    (hne : (decw c).nib ≠ n) : regroup (nibblesOf t) ≠ x := by
  intro hx
  rw [enc_length] at hlen
  have hnib : nibblesOf t = payloadNibbles x := by
    rw [← hx, payloadNibbles_regroup (by rw [nibblesOf_length]; omega)]
  apply hne
  simpa [hnib, hc, hn, eq_comm] using nibblesOf_getElem? t m

/-- R102: a stream as long as the encoding is decoded into as many bytes as were encoded. -/
theorem length_regroup_nibblesOf {x : List Byte} {t : Bits} (hlen : t.length = (enc x).length) :
    (regroup (nibblesOf t)).length = x.length := by
  rw [regroup_length, nibblesOf_length, hlen, enc_length]
  omega

/-- R105: wrong bytes come with status `OK`. -/
theorem exec_dec_wrong {x : List Byte} {t : Bits} (hlen : t.length = (enc x).length) (hne : regroup (nibblesOf t) ≠ x)
    (s : State) : ∃ y : List Byte, exec (.dec t) s = .next { s with completion := some (.ok (.bytes y)) } ∧
      y.length = x.length ∧ y ≠ x :=
  ⟨_, exec_dec_of_pairs (by rw [hlen, enc_length]; omega) s, length_regroup_nibblesOf hlen, hne⟩

/-! ### Flips of an encoding -/

/-- R104: a flip in a valid codeword changes no nibble. -/
theorem nibblesOf_flipAt_of_valid {s : Bits} {i : Nat} (h7 : s.length % 7 = 0)
    (hv : ∀ c, (codewordsOf s)[i / 7]? = some c → validCodeword c) : nibblesOf (flipAt s i) = nibblesOf s := by
  apply List.ext_getElem?
  intro m
  rw [nibblesOf_getElem?, nibblesOf_getElem?, codewordsOf_flipAt h7, List.getElem?_modify]
  cases hc : (codewordsOf s)[m]? with
  | none => rfl
  | some c =>
    by_cases hm : i / 7 = m
    · obtain ⟨n, rfl⟩ := hv c (hm ▸ hc)
      simp [hm, decw_flipPos_encn n (Nat.mod_lt i (by decide))]
    · simp [hm]

/-- R104: one flip of an encoding. -/
theorem nibblesOf_inj_enc (x : List Byte) (fire : Bool) (pos : Nat) :
    nibblesOf (inj (enc x) fire pos) = payloadNibbles x := by
  cases fire with
  | false => simp
  | true =>
    rw [inj_true, nibblesOf_flipAt_of_valid (enc_length_mod_seven x), nibblesOf_enc]
    exact fun c hc => validCodeword_of_mem_enc (List.mem_of_getElem? hc)

/-- R104: two flips of an encoding in different codewords. -/
theorem nibblesOf_flipAt_flipAt_enc (x : List Byte) {i j : Nat} (h : i / 7 ≠ j / 7) :
    nibblesOf (flipAt (flipAt (enc x) i) j) = payloadNibbles x := by
  have h7 := enc_length_mod_seven x
  rw [nibblesOf_flipAt_of_valid (by rw [flipAt_length, h7]), ← inj_true, nibblesOf_inj_enc]
  intro c hc
  have hc : (codewordsOf (enc x))[j / 7]? = some c := by simpa [codewordsOf_flipAt h7, h] using hc
  exact validCodeword_of_mem_enc (List.mem_of_getElem? hc)

/-- Two flips of an encoding at different positions of one codeword, at that codeword. -/
theorem codewordsOf_flipAt_flipAt_enc {x : List Byte} {i j : Nat} {n : Nibble} (h : i / 7 = j / 7)
    (hn : (payloadNibbles x)[i / 7]? = some n) :
    (codewordsOf (flipAt (flipAt (enc x) i) j))[i / 7]? = some (flipPos (flipPos (encn n) (i % 7)) (j % 7)) := by
  have h7 := enc_length_mod_seven x
  rw [codewordsOf_flipAt (by rw [flipAt_length, h7]), codewordsOf_flipAt h7, ← h]
  simp [hn]

/-- R105: two different flips in one codeword give wrong bytes. -/
theorem regroup_nibblesOf_flipAt_flipAt_enc_ne {x : List Byte} {i j : Nat} (hi : i < 14 * x.length) (hij : i ≠ j)
    (h : i / 7 = j / 7) : regroup (nibblesOf (flipAt (flipAt (enc x) i) j)) ≠ x := by
  have hlen : (flipAt (flipAt (enc x) i) j).length = (enc x).length := by simp
  obtain ⟨-, n, -, hn⟩ := exists_codeword_and_nibble hlen (show i / 7 < 2 * x.length by omega)
  refine regroup_nibblesOf_ne hlen (codewordsOf_flipAt_flipAt_enc h hn) hn ?_
  rw [ne_eq, decw_nib_eq_iff, distance_flipPos_flipPos _ (by omega) (by omega) (by omega)]
  decide

/-- R128: the syndromes of an injected encoding. -/
theorem synd_codewordsOf_inj_enc {x : List Byte} {m : Nat} (hm : m < 2 * x.length) (fire : Bool) (pos : Nat) :
    ((codewordsOf (inj (enc x) fire pos))[m]?).map synd =
      some (if fire = true ∧ m = pos / 7 then errorSyndrome ⟨pos % 7, Nat.mod_lt pos (by decide)⟩ else 0#3) := by
  obtain ⟨-, n, -, hn⟩ := exists_codeword_and_nibble rfl hm
  cases fire with
  | false => simp [hn]
  | true =>
    rw [inj_true, codewordsOf_flipAt (enc_length_mod_seven x), List.getElem?_modify, codewordsOf_enc,
      List.getElem?_map, hn]
    by_cases h : pos / 7 = m
    · simp [h, synd_flipPos_encn n ⟨pos % 7, Nat.mod_lt pos (by decide)⟩]
    · simp [h, Ne.symm h]

/-! ### The obligations of the encoder's stream -/

/-- Settles O4: each law from ENCN's, by codeword; the distance is that of the ⊕ of the two nibbles. -/
theorem encoderLaws : Obligations.EncoderLaws := by
  refine ⟨fun n x s s' => ⟨_, _, exec_encn n s, exec_encn n s', exec_enc x s, exec_enc x s'⟩,
    fun x => ⟨?_, enc_length x⟩, fun n => ?_, fun m n => encn_injective, fun x y => enc_injective, enc_append,
    synd_encn, encn_xor, fun m n => three_le_distance_encn⟩
  · rw [enc_length, ← Nat.mul_assoc]
    rfl
  · rw [codewordBits_encn]
    rfl

/-- Settles O5: byte `j` gives codewords `2j` and `2j + 1`. -/
theorem encPlacesByteAtFourteenJ : Obligations.EncPlacesByteAtFourteenJ := by
  intro x j B h
  obtain ⟨hhigh, hlow⟩ := payloadNibbles_getElem? h
  obtain ⟨hj, rfl⟩ := List.getElem?_eq_some_iff.mp h
  refine ⟨?_, ?_, ?_⟩
  · have hc : (codewordsOf (enc x))[2 * j]? = some (encn (highNibble x[j])) := by simp [hhigh]
    simpa [← Nat.mul_assoc] using slice_eq_codewordBits hc
  · have hc : (codewordsOf (enc x))[2 * j + 1]? = some (encn (lowNibble x[j])) := by simp [hlow]
    simpa [Nat.mul_add, ← Nat.mul_assoc] using slice_eq_codewordBits hc
  · rw [← enc_append, ← enc_append, List.append_assoc, List.singleton_append, List.getElem_cons_drop,
      List.take_append_drop]

/-! ### The obligations of the decoder's stream -/

/-- Settles O25: every codeword is at most one position from that of its nibble, which is then DECW's. -/
theorem oneErrorPerCodewordIsCorrected : Obligations.OneErrorPerCodewordIsCorrected := by
  intro x t s hlen hnear
  refine exec_dec_of_nibbles hlen (List.ext_getElem? fun m => ?_) s
  by_cases hm : m < 2 * x.length
  · obtain ⟨c, n, hc, hn⟩ := exists_codeword_and_nibble hlen hm
    have hnib : (decw c).nib = n := by
      rw [decw_nib_eq_iff, ← streamDistance_slice_enc hc hn]
      exact hnear m hm
    rw [nibblesOf_getElem?, hc, hn, Option.map_some, hnib]
  · rw [List.getElem?_eq_none, List.getElem?_eq_none]
    · rw [payloadNibbles_length]
      omega
    · rw [nibblesOf_length, hlen, enc_length]
      omega

/-- Settles O26: a word two positions away has another nibble, and one wrong nibble makes the bytes wrong. -/
theorem twoErrorsAreSilentlyWrong : Obligations.TwoErrorsAreSilentlyWrong := by
  have hfar : ∀ (n : Nibble) (c : Codeword), 2 ≤ distance c (encn n) → (decw c).nib ≠ n := by
    intro n c h
    rw [ne_eq, decw_nib_eq_iff]
    omega
  refine ⟨fun n i j hi hj hij => hfar n _ (distance_flipPos_flipPos _ hi hj hij).ge, hfar,
    fun x i j s hi _ hij h => exec_dec_wrong (by simp) (regroup_nibblesOf_flipAt_flipAt_enc_ne hi hij h) s,
    fun x t m s hlen hm h => ?_⟩
  obtain ⟨c, n, hc, hn⟩ := exists_codeword_and_nibble hlen hm
  rw [streamDistance_slice_enc hc hn] at h
  exact exec_dec_wrong hlen (regroup_nibblesOf_ne hlen hc hn (hfar n c h)) s

/-- Settles O28: the bytes' nibbles are DECW's, whose codewords are the corrected ones. -/
theorem encAfterDecCorrectsTheStream : Obligations.EncAfterDecCorrectsTheStream := by
  intro t y h
  obtain ⟨hlen, rfl⟩ := answer_dec_bytes_iff.mp h
  have henc : enc (regroup (nibblesOf t)) = streamOf ((codewordsOf t).map fun c => (decw c).cc) := by
    rw [enc_eq_streamOf, payloadNibbles_regroup (by rw [nibblesOf_length]; omega), nibblesOf, List.map_map]
    simp only [Function.comp_def, decw_cc_eq_encn]
  refine ⟨henc, ?_⟩
  calc enc (regroup (nibblesOf t)) = t
      ↔ (codewordsOf t).map (fun c => (decw c).cc) = (codewordsOf t).map id := by
        rw [henc, List.map_id]
        constructor
        · intro ht
          rw [← codewordsOf_streamOf ((codewordsOf t).map _), ht]
        · intro ht
          rw [ht, streamOf_codewordsOf (by omega)]
    _ ↔ ∀ c ∈ codewordsOf t, validCodeword c := by
        simp only [List.map_inj_left, id, decw_cc_eq_self_iff]

/-- Settles O29: at most one codeword is hit, by one flip. -/
theorem decUndoesOneInjection : Obligations.DecUndoesOneInjection := by
  intro x p fire pos s t h
  refine ⟨inj (enc x) fire pos, eq_of_exec_inj h, ?_, fun m hm => synd_codewordsOf_inj_enc hm fire pos⟩
  exact exec_dec_of_nibbles (inj_length ..) (nibblesOf_inj_enc x fire pos) t

/-- Any number of INJ keep the length of the stream (R120). -/
theorem length_of_injectAll {bits out : Bits} {ds : List (Prob × Bool × Nat)} (h : injectAll bits ds = some out) :
    out.length = bits.length := by
  induction ds generalizing bits with
  | nil =>
    cases h
    rfl
  | cons d ds ih =>
    obtain ⟨p, fire, pos⟩ := d
    rw [injectAll] at h
    split at h
    next mid hmid => exact (ih h).trans (length_of_answer_inj hmid)
    next => cases h

/-- Settles O30: INJ keeps the length, by which alone DEC judges. -/
theorem injectedStreamsAreNeverMalformed : Obligations.InjectedStreamsAreNeverMalformed := by
  intro x ds out s h
  have hlen := length_of_injectAll h
  exact ⟨_, exec_dec_of_pairs (by rw [hlen, enc_length]; omega) s, length_regroup_nibblesOf hlen⟩

/-- Settles O31: codewords and bytes of the two streams follow one another. -/
theorem decOfConcatenation : Obligations.DecOfConcatenation := by
  intro a b s ha hb
  refine ⟨_, _, answer_dec_bytes_iff.mpr ⟨ha, rfl⟩, answer_dec_bytes_iff.mpr ⟨hb, rfl⟩, ?_⟩
  have hnib : nibblesOf (a ++ b) = nibblesOf a ++ nibblesOf b := by
    rw [nibblesOf, codewordsOf_append (by omega), List.map_append]
    rfl
  have hbytes : regroup (nibblesOf (a ++ b)) = regroup (nibblesOf a) ++ regroup (nibblesOf b) := by
    rw [hnib, regroup_append (by rw [nibblesOf_length]; omega)]
  rw [exec_dec_of_pairs (by rw [List.length_append]; omega), hbytes, deliver_eq]

end Sys2Proof.Machine
end

section
/-! The step (30_encoding R75, 20_memory R52, 60_exceptions R146): what the head of the issue order makes a step do, and
what a step does to each request as a function of that request alone. -/

namespace Sys2Proof.Machine

/-! ### A step by what is fetched -/

/-- R71, R75: a step that runs an operation gives its answer to the request, under the line's name. -/
theorem step_of_fetch_run {s : State} {k : Nat} {n : Name} {i : Instr} {c : Completion} {q : Request}
    (hf : fetch s = .run k n i) (hc : answer i = some c) (hq : s.requests[k]? = some q) :
    step s = .next { s with
      completion := some c, requests := s.requests.set k (q.receive n c), issue := s.issue.tail } := by
  simp only [step, hf, exec_of_answer hc, receive, hq]

/-- A step is refused when the operation fetched is. -/
theorem step_of_fetch_run_refused {s : State} {k : Nat} {n : Name} {i : Instr} {r : Refusal}
    (hf : fetch s = .run k n i) (hr : exec i s = .refused r) : step s = .refused r := by
  simp only [step, hf, hr]

/-- R146, log 10: a request at its end is passed over. -/
theorem step_of_program_nil {s : State} {k : Nat} {rest : List Nat} {q : Request} (hi : s.issue = k :: rest)
    (hq : s.requests[k]? = some q) (hp : q.program = []) : step s = .next { s with issue := rest } := by
  simp only [step, fetch, hi, hq, fetchLine, hp, passOver, List.tail_cons]

/-- Log 9: a line that makes no transaction is refused by name. -/
theorem step_of_transactionOf_error {s : State} {k : Nat} {rest : List Nat} {q : Request} {l : Line} {ls : List Line}
    {e : LineError} (hi : s.issue = k :: rest) (hq : s.requests[k]? = some q) (hp : q.program = l :: ls)
    (ht : transactionOf l q.bindings = .error e) : step s = .refused (.badLine e) := by
  simp only [step, fetch, hi, hq, fetchLine, hp, ht]

/-- Log 9: a transaction that is none of the block's is refused by name. -/
theorem step_of_decode_error {s : State} {k : Nat} {rest : List Nat} {q : Request} {l : Line} {ls : List Line}
    {t : Transaction} {e : DecodeError} (hi : s.issue = k :: rest) (hq : s.requests[k]? = some q)
    (hp : q.program = l :: ls) (ht : transactionOf l q.bindings = .ok t) (he : decode t = .error e) :
    step s = .refused (.badTransaction e) := by
  simp only [step, fetch, hi, hq, fetchLine, hp, ht, he]

theorem fetchLine_ne_idle (k : Nat) (q : Request) : fetchLine k q ≠ .idle := by
  intro h
  unfold fetchLine at h
  split at h
  · cases h
  · split at h
    · cases h
    · split at h <;> cases h

/-- R22: a step is idle only when nothing is issued. -/
theorem issue_eq_nil_of_fetch_idle {s : State} (h : fetch s = .idle) : s.issue = [] := by
  unfold fetch at h
  split at h
  next hi => exact hi
  next k rest _ =>
    split at h
    next => cases h
    next q _ => exact absurd h (fetchLine_ne_idle k q)

/-- Every step keeps the block and drops the head of the issue order. -/
theorem block_and_issue_of_step {s t : State} (h : step s = .next t) : t.block = s.block ∧ t.issue = s.issue.tail := by
  obtain ⟨hf, rfl⟩ | ⟨-, rfl⟩ | ⟨k, n, i, u, -, hu, rfl⟩ := step_next_cases h
  · exact ⟨rfl, by rw [issue_eq_nil_of_fetch_idle hf, List.tail_nil]⟩
  · exact ⟨rfl, rfl⟩
  · obtain ⟨c, -, rfl⟩ := exec_next_iff.mp hu
    exact ⟨receive_block .., receive_issue ..⟩

/-! ### A step by request -/

/-- The request after its next line is issued: as it was when it is at its end, with the answer received otherwise; none
when the line has no meaning. `advance_iff_step` ties it to the step. -/
def performNext (q : Request) : Option Request :=
  match q.program with
  | [] => some q
  | l :: _ =>
    match transactionOf l q.bindings with
    | .error _ => none
    | .ok t =>
      match decode t with
      | .error _ => none
      | .ok i => (answer i).map (q.receive l.name)

/-- The requests after the next line of request `k` is issued. -/
def advance (k : Nat) (rs : List Request) : Option (List Request) :=
  match rs[k]? with
  | none => some rs
  | some q => (performNext q).map (rs.set k)

theorem performNext_of_program_nil {q : Request} (h : q.program = []) : performNext q = some q := by
  simp only [performNext, h]

theorem performNext_of_line {q : Request} {l : Line} {ls : List Line} {t : Transaction} {i : Instr}
    (hp : q.program = l :: ls) (ht : transactionOf l q.bindings = .ok t) (hd : decode t = .ok i) :
    performNext q = (answer i).map (q.receive l.name) := by
  simp only [performNext, hp, ht, hd]

theorem advance_of_getElem? {k : Nat} {rs : List Request} {q : Request} (h : rs[k]? = some q) :
    advance k rs = (performNext q).map (rs.set k) := by
  simp only [advance, h]

theorem advance_of_none {k : Nat} {rs : List Request} (h : rs[k]? = none) : advance k rs = some rs := by
  simp only [advance, h]

/-- R52: what a step does to the requests is `advance`, whatever else the state holds. -/
theorem advance_iff_step {s : State} {k : Nat} {rest : List Nat} (hi : s.issue = k :: rest) (rs : List Request) :
    advance k s.requests = some rs ↔ ∃ c, step s = .next ⟨s.block, c, rs, rest⟩ := by
  cases hq : s.requests[k]? with
  | none =>
    rw [advance_of_none hq]
    simp [step, fetch, hi, hq, passOver, eq_comm]
  | some q =>
    rw [advance_of_getElem? hq]
    cases hp : q.program with
    | nil =>
      have hset : s.requests.set k q = s.requests := by
        obtain ⟨hk, rfl⟩ := List.getElem?_eq_some_iff.mp hq
        exact List.set_getElem_self hk
      rw [performNext_of_program_nil hp, step_of_program_nil hi hq hp, Option.map_some, hset]
      simp
    | cons l ls =>
      cases ht : transactionOf l q.bindings with
      | error e => simp [performNext, hp, ht, step_of_transactionOf_error hi hq hp ht]
      | ok t =>
        cases hd : decode t with
        | error e => simp [performNext, hp, ht, hd, step_of_decode_error hi hq hp ht hd]
        | ok i =>
          have hf := fetch_of_line hi hq hp ht hd
          rw [performNext_of_line hp ht hd]
          cases hc : answer i with
          | none =>
            obtain ⟨r, hr⟩ := exec_refused_of_answer_none hc
            simp [step_of_fetch_run_refused hf (hr s)]
          | some c => simp [step_of_fetch_run hf hc hq, hi]

/-- A step with something issued is an `advance`. -/
theorem advance_of_step {s t : State} {k : Nat} {rest : List Nat} (hi : s.issue = k :: rest) (h : step s = .next t) :
    advance k s.requests = some t.requests := by
  obtain ⟨hb, hi'⟩ := block_and_issue_of_step h
  rw [hi, List.tail_cons] at hi'
  exact (advance_iff_step hi t.requests).mpr ⟨t.completion, by rw [h, ← hi']⟩

/-- R52: every other request is as it was. -/
theorem advance_getElem?_ne {j k : Nat} {rs rs' : List Request} (h : advance k rs = some rs') (hjk : k ≠ j) :
    rs'[j]? = rs[j]? := by
  cases hq : rs[k]? with
  | none =>
    rw [advance_of_none hq] at h
    cases h
    rfl
  | some q =>
    rw [advance_of_getElem? hq, Option.map_eq_some_iff] at h
    obtain ⟨q', -, rfl⟩ := h
    exact List.getElem?_set_ne hjk

theorem advance_getElem?_self {k : Nat} {rs rs' : List Request} {q : Request} (h : advance k rs = some rs')
    (hq : rs[k]? = some q) : rs'[k]? = performNext q := by
  rw [advance_of_getElem? hq, Option.map_eq_some_iff] at h
  obtain ⟨q', hq', rfl⟩ := h
  rw [hq', List.getElem?_set_self (List.getElem?_eq_some_iff.mp hq).1]

theorem advance_length {k : Nat} {rs rs' : List Request} (h : advance k rs = some rs') : rs'.length = rs.length := by
  unfold advance at h
  split at h
  · cases h
    rfl
  · obtain ⟨q', -, rfl⟩ := Option.map_eq_some_iff.mp h
    exact List.length_set

/-- R51: the next lines of two requests, in either order. -/
theorem advance_comm {j k : Nat} (hjk : j ≠ k) (rs : List Request) :
    (advance j rs).bind (advance k) = (advance k rs).bind (advance j) := by
  cases hj : rs[j]? with
  | none =>
    rw [advance_of_none hj, Option.bind_some]
    cases hk : advance k rs with
    | none => rfl
    | some rs' => rw [Option.bind_some, advance_of_none (by rw [advance_getElem?_ne hk hjk.symm, hj])]
  | some q =>
    cases hk : rs[k]? with
    | none =>
      rw [advance_of_none hk, Option.bind_some]
      cases hj' : advance j rs with
      | none => rfl
      | some rs' => rw [Option.bind_some, advance_of_none (by rw [advance_getElem?_ne hj' hjk, hk])]
    | some r =>
      rw [advance_of_getElem? hj, advance_of_getElem? hk]
      cases hq : performNext q <;> cases hr : performNext r <;>
        simp [advance, List.getElem?_set_ne, hjk, hjk.symm, hj, hk, hq, hr, List.set_comm]

/-! ### Runs by request -/

/-- A request after its next `m` lines are issued; `performN_of_runSteps` and `runSteps_of_performN` tie it to runs. -/
def performN : Nat → Request → Option Request
  | 0, q => some q
  | m + 1, q => (performNext q).bind (performN m)

theorem runSteps_succ_next {m : Nat} {s t : State} (h : runSteps (m + 1) s = .next t) :
    ∃ u, step s = .next u ∧ runSteps m u = .next t := by
  rw [runSteps] at h
  split at h
  next u hu => exact ⟨u, hu, h⟩
  next => cases h
  next => cases h

theorem runSteps_succ_of_step {m : Nat} {s u : State} (h : step s = .next u) : runSteps (m + 1) s = runSteps m u := by
  rw [runSteps, h]

/-- R52: in any run a request is what its own lines make of it. -/
theorem performN_of_runSteps {m : Nat} {s t : State} {k : Nat} {q : Request} (h : runSteps m s = .next t)
    (hq : s.requests[k]? = some q) :
    ∃ q', performN ((s.issue.take m).count k) q = some q' ∧ t.requests[k]? = some q' := by
  induction m generalizing s q with
  | zero =>
    cases h
    exact ⟨q, rfl, hq⟩
  | succ m ih =>
    obtain ⟨u, hu, hrun⟩ := runSteps_succ_next h
    cases hi : s.issue with
    | nil =>
      rw [step_idle hi] at hu
      cases hu
      simpa [hi] using ih hrun hq
    | cons j rest =>
      have hadv := advance_of_step hi hu
      have hrest : u.issue = rest := by rw [(block_and_issue_of_step hu).2, hi, List.tail_cons]
      rw [List.take_succ_cons, ← hrest]
      by_cases hjk : j = k
      · subst hjk
        have hself := advance_getElem?_self hadv hq
        cases hq' : performNext q with
        | none => simp [advance_of_getElem? hq, hq'] at hadv
        | some q' =>
          rw [List.count_cons_self, performN, hq', Option.bind_some]
          exact ih hrun (hself.trans hq')
      · rw [List.count_cons_of_ne hjk]
        exact ih hrun ((advance_getElem?_ne hadv hjk).trans hq)

/-- A request alone in the machine is performed as far as its lines have a meaning. -/
theorem runSteps_of_performN {m : Nat} {q q' : Request} (h : performN m q = some q') {s : State} {rest : List Nat}
    (hs : s.requests = [q]) (hi : s.issue = List.replicate m 0 ++ rest) :
    ∃ u, runSteps m s = .next u ∧ u.requests = [q'] := by
  induction m generalizing s q with
  | zero =>
    cases h
    exact ⟨s, rfl, hs⟩
  | succ m ih =>
    obtain ⟨p, hp, hrest⟩ := Option.bind_eq_some_iff.mp h
    rw [List.replicate_succ, List.cons_append] at hi
    have hadv : advance 0 s.requests = some [p] := by simp [advance, hs, hp]
    obtain ⟨c, hc⟩ := (advance_iff_step hi _).mp hadv
    rw [runSteps_succ_of_step hc]
    exact ih hrest rfl rfl

/-- R52: a request alone in the machine, as many of its lines issued. -/
theorem runSteps_soloState_of_performN {m : Nat} {q q' : Request} (h : performN m q = some q') :
    ∃ u, runSteps m (soloState q m) = .next u ∧ u.requests = [q'] :=
  runSteps_of_performN h rfl (List.append_nil _).symm

/-! ### The transactions of lines -/

/-- R75: "A name is bound once". -/
theorem name_not_bound_of_transactionOf {l : Line} {b : Bindings} {t : Transaction} (h : transactionOf l b = .ok t) :
    l.name ∉ boundNames b := by
  unfold transactionOf at h
  split at h
  next => cases h
  next hn => exact (lookupName_eq_none_iff b l.name).mp hn

theorem transactionOf_of_bound {l : Line} {b : Bindings} (h : l.name ∈ boundNames b) :
    transactionOf l b = .error .nameAlreadyBound := by
  cases hn : lookupName b l.name with
  | none => exact absurd h ((lookupName_eq_none_iff b l.name).mp hn)
  | some c => simp only [transactionOf, hn]

/-- The operands decide about a line whose name is new. -/
theorem transactionOf_of_resolveArgs_error {l : Line} {b : Bindings} {e : LineError} (hn : l.name ∉ boundNames b)
    (h : resolveArgs b l.args = .error e) : transactionOf l b = .error e := by
  simp only [transactionOf, (lookupName_eq_none_iff b l.name).mpr hn, h]

/-- The first operand at fault gives the reason. -/
theorem resolveArgs_append_error {b : Bindings} {before : List Arg} {vs : List Value} {a : Arg} {e : LineError}
    (h : resolveArgs b before = .ok vs) (ha : resolveArg b a = .error e) (after : List Arg) :
    resolveArgs b (before ++ a :: after) = .error e := by
  induction before generalizing vs with
  | nil => simp only [List.nil_append, resolveArgs, ha]
  | cons a' before ih =>
    rw [resolveArgs] at h
    split at h
    next => cases h
    next v hv =>
      split at h
      next => cases h
      next vs' hvs => simp only [List.cons_append, resolveArgs, hv, ih hvs]

/-- One operand at fault is enough. -/
theorem exists_resolveArgs_error {b : Bindings} {args : List Arg} (h : ∃ a ∈ args, ∃ e, resolveArg b a = .error e) :
    ∃ e, resolveArgs b args = .error e := by
  induction args with
  | nil =>
    obtain ⟨a, ha, -⟩ := h
    cases ha
  | cons a args ih =>
    cases ha : resolveArg b a with
    | error e => exact ⟨e, by simp only [resolveArgs, ha]⟩
    | ok v =>
      obtain ⟨a', hmem, e, he⟩ := h
      obtain rfl | hmem := List.mem_cons.mp hmem
      · rw [ha] at he
        cases he
      · obtain ⟨e', he'⟩ := ih ⟨a', hmem, e, he⟩
        exact ⟨e', by simp only [resolveArgs, ha, he']⟩

/-- A line of literal operands under a name not bound is the transaction it spells. -/
theorem transactionOf_lit (n : Name) (t : Transaction) :
    transactionOf ⟨n, t.op, t.operands.map Arg.lit, t.draws⟩ [] = .ok t := by
  simp only [transactionOf, lookupName, resolveArgs_lit]

/-! ### The invariant -/

/-- R92 item 5, R106, R66, R114: every answer is lawful. -/
theorem lawful_of_answer {i : Instr} {c : Completion} (h : answer i = some c) : c.lawful = true := by
  cases i with
  | encn n =>
    cases h
    simp [Completion.lawful, Result.lawful]
  | decw w =>
    cases h
    simp [Completion.lawful, Result.lawful, ← decw_cc_eq_encn, (validCodeword_iff_synd _).mp ⟨_, decw_cc_eq_encn w⟩]
  | slut y =>
    cases h
    simp only [Completion.lawful, Result.lawful, synd_slut_mask]
    simp [slut]
  | enc x | synd w =>
    cases h
    rfl
  | dec bits =>
    by_cases hl : bits.length % 14 = 0
    · rw [answer_of_exec (exec_dec_of_pairs hl)] at h
      cases h
      rfl
    · rw [answer_of_exec (exec_dec_of_not_pairs hl)] at h
      cases h
      rfl
  | inj bits p fire pos =>
    obtain ⟨-, rfl⟩ := answer_inj_iff.mp h
    rfl
  | lose q lost =>
    obtain ⟨-, rfl⟩ := answer_lose_iff.mp h
    rfl

/-- R75, R146: a sound request that receives a lawful completion for its next line, under a new name, is sound. -/
theorem Request.sound.receive {q : Request} (hq : q.sound) {l : Line} {ls : List Line} (hp : q.program = l :: ls)
    (hn : l.name ∉ boundNames q.bindings) {c : Completion} (hc : c.lawful = true) : (q.receive l.name c).sound := by
  obtain ⟨hnodup, hnames, hfault, hlawful⟩ := hq
  have hnot : q.bindings.any (fun v => v.2.isFault) = false := by
    rw [← Bool.not_eq_true]
    intro h
    rw [hfault h] at hp
    cases hp
  refine ⟨?_, ?_, fun h => ?_, ?_⟩
  · rw [requestReceive_bindings, boundNames, List.map_append, List.map_singleton, ← List.concat_eq_append]
    exact hnodup.concat hn
  · rw [requestReceive_bindings, requestReceive_performed, boundNames, List.map_append, List.map_append, hp]
    exact congrArg (· ++ [l.name]) hnames
  · have hcf : c.isFault = true := by simpa [Request.faulted, hnot] using h
    rw [Request.receive, if_pos hcf]
  · intro v hv
    rw [requestReceive_bindings, List.mem_append, List.mem_singleton] at hv
    obtain hv | rfl := hv
    · exact hlawful v hv
    · exact hc

/-! ### The obligations of the step -/

/-- Settles O39: the line is fetched, and its request receives the answer. -/
theorem stepRunsTheDecodedOperation : Obligations.StepRunsTheDecodedOperation := by
  intro s k rest q l ls t i hi hq hp ht hd
  have hf := fetch_of_line hi hq hp ht hd
  refine ⟨fun u hu => ?_, fun r hr => step_of_fetch_run_refused hf hr⟩
  obtain ⟨c, hc, rfl⟩ := exec_next_iff.mp hu
  exact ⟨c, rfl, by rw [step_of_fetch_run hf hc hq, Request.receive, hp, hi]; rfl⟩

/-- The zero operands and draws of a bare word are well formed (log 2). -/
theorem wf_of_decode_wordTransaction {w : Nat} {i : Instr} (h : decode (wordTransaction w) = .ok i) : i.wf = true := by
  have hword : ∀ v < 8, (decode (wordTransaction v)).toOption.all Instr.wf = true := by decide
  have hmod : BitVec.ofNat 3 w = BitVec.ofNat 3 (w % 8) := by
    apply BitVec.eq_of_toNat_eq
    simp
  rw [wordTransaction_congr hmod] at h
  have hv := hword (w % 8) (Nat.mod_lt w (by decide))
  rwa [h] at hv

/-- Settles O40: the new request's one line is the word's transaction. -/
theorem withFetchWordRunsTheWord : Obligations.WithFetchWordRunsTheWord := by
  intro s nbits w i h
  have hd : decode (wordTransaction w) = .ok i := by
    rw [decodeTableWord] at h
    cases hw : decode (wordTransaction w) with
    | error e =>
      rw [hw] at h
      cases h
    | ok j =>
      rw [hw] at h
      exact congrArg Except.ok (Option.some.inj h)
  obtain ⟨c, hc⟩ := (wf_iff_answer i).mp (wf_of_decode_wordTransaction hd)
  have hq : (s.withFetchWord nbits w).requests[s.requests.length]? = some (oneLine ['x'] (wordTransaction w)) := by
    simp [State.withFetchWord]
  have hf := fetch_of_line rfl hq rfl (transactionOf_lit ['x'] (wordTransaction w)) hd
  refine ⟨c, hc, ?_⟩
  rw [step_of_fetch_run hf hc hq]
  cases c <;> simp [State.withFetchWord, issueFirst, oneLine, Request.receive, Completion.isFault]

/-- Settles O41: the name is looked at first, then the operands in order, then the decoder. -/
theorem badLinesAreRefused : Obligations.BadLinesAreRefused := by
  intro s k rest q l ls hi hq hp
  refine ⟨fun hn => step_of_transactionOf_error hi hq hp (transactionOf_of_bound hn),
    fun hn before after a vs hargs hbefore => ?_, fun hbad => ?_, fun t e ht he => step_of_decode_error hi hq hp ht he⟩
  · have hrefuse : ∀ e, resolveArg q.bindings a = .error e → step s = .refused (.badLine e) := fun e he =>
      step_of_transactionOf_error hi hq hp
        (transactionOf_of_resolveArgs_error hn (hargs ▸ resolveArgs_append_error hbefore he after))
    refine ⟨fun n hnb ha => hrefuse _ ?_, fun n f hf ha => hrefuse _ ?_, fun n r hr ha => hrefuse _ ?_⟩
    · have hnone := (lookupName_eq_none_iff q.bindings n).mpr hnb
      obtain rfl | ⟨f, rfl⟩ := ha <;> simp only [resolveArg, hnone]
    · obtain rfl | ⟨g, rfl⟩ := ha <;> simp only [resolveArg, hf]
    · obtain ⟨rfl, hv⟩ | ⟨g, rfl, hv⟩ := ha <;> simp only [resolveArg, hr, hv, foundValue]
  · by_cases hn : l.name ∈ boundNames q.bindings
    · exact ⟨_, step_of_transactionOf_error hi hq hp (transactionOf_of_bound hn)⟩
    · obtain ⟨e, he⟩ := exists_resolveArgs_error hbad
      exact ⟨e, step_of_transactionOf_error hi hq hp (transactionOf_of_resolveArgs_error hn he)⟩

/-- Settles O42: the request that issued DEC receives the fault, and a request at its end is passed over. -/
theorem faultEndsOnlyItsRequest : Obligations.FaultEndsOnlyItsRequest := by
  refine ⟨fun s k n bits q hf hq hl => ?_, fun s k rest q hi hq hp => step_of_program_nil hi hq hp⟩
  have hc : answer (.dec bits) = some (.fault .malformedStream) := answer_of_exec (exec_dec_of_not_pairs hl)
  refine ⟨_, step_of_fetch_run hf hc hq, rfl, rfl, rfl, ?_, fun j hj => List.getElem?_set_ne (Ne.symm hj)⟩
  exact List.getElem?_set_self (List.getElem?_eq_some_iff.mp hq).1

/-- Settles O43: no operation stops with a fault, and nothing else in a step does. -/
theorem noStepStopsWithAFault : Obligations.NoStepStopsWithAFault := by
  intro s f h
  unfold step at h
  split at h
  · cases h
  · cases h
  · cases h
  · split at h
    · cases h
    · next hf => exact exec_ne_fault _ _ _ hf
    · cases h

/-- Settles O44: with something issued a step is an `advance` of that request. -/
theorem stepTouchesOneRequest : Obligations.StepTouchesOneRequest := by
  intro s t h
  obtain ⟨hb, hi'⟩ := block_and_issue_of_step h
  refine ⟨hb, hi', ?_⟩
  cases hi : s.issue with
  | nil =>
    rw [step_idle hi] at h
    cases h
    exact ⟨rfl, fun _ _ => rfl⟩
  | cons k rest =>
    have hadv := advance_of_step hi h
    exact ⟨advance_length hadv, fun j hj => advance_getElem?_ne hadv fun e => hj (congrArg some e)⟩

/-- Settles O45: at reset no request and no completion is held. -/
theorem resetMeetsInv : Obligations.ResetMeetsInv :=
  ⟨fun _ hq => (List.not_mem_nil hq).elim, fun _ hc => by cases hc⟩

/-- Settles O46: only a line performed changes a request, under a new name and with a lawful answer. -/
theorem stepKeepsInv : Obligations.StepKeepsInv := by
  intro s t hinv h
  obtain ⟨-, rfl⟩ | ⟨-, rfl⟩ | ⟨k, n, i, u, hf, hu, -⟩ := step_next_cases h
  · exact hinv
  · exact hinv
  · obtain ⟨hsound, -⟩ := hinv
    obtain ⟨c, hc, -⟩ := exec_next_iff.mp hu
    obtain ⟨rest, q, l, ls, tr, -, hq, hp, rfl, htr, -⟩ := fetch_run hf
    have hlawful := lawful_of_answer hc
    rw [step_of_fetch_run hf hc hq] at h
    cases h
    refine ⟨fun q' hq' => ?_, fun c' hc' => Option.some.inj hc' ▸ hlawful⟩
    obtain hmem | rfl := List.mem_or_eq_of_mem_set hq'
    · exact hsound q' hmem
    · exact (hsound q (List.mem_of_getElem? hq)).receive hp (name_not_bound_of_transactionOf htr) hlawful

/-- Settles O47: in company and alone, a request is what its own lines make of it. -/
theorem everyInterleavingIsAsIfAlone : Obligations.EveryInterleavingIsAsIfAlone := by
  intro s t m k q h hq
  obtain ⟨q', hperform, hq'⟩ := performN_of_runSteps h hq
  obtain ⟨u, hu, hreq⟩ := runSteps_soloState_of_performN hperform
  exact ⟨u, hu, by rw [hreq, hq', List.getElem?_cons_zero]⟩

/-- Settles O48: the two lines advance different requests. -/
theorem operationsOfDifferentRequestsCommute : Obligations.OperationsOfDifferentRequestsCommute := by
  intro s t j k rest hjk hi h
  obtain ⟨v, hv, hrun⟩ := runSteps_succ_next h
  obtain ⟨t', ht, hend⟩ := runSteps_succ_next hrun
  cases hend
  obtain ⟨hvb, hvi⟩ := block_and_issue_of_step hv
  obtain ⟨htb, hti⟩ := block_and_issue_of_step ht
  rw [hi, List.tail_cons] at hvi
  rw [hvi, List.tail_cons] at hti
  have hboth : (advance k s.requests).bind (advance j) = some t.requests := by
    rw [← advance_comm hjk, advance_of_step hi hv, Option.bind_some, advance_of_step hvi ht]
  obtain ⟨rs, hk, hj⟩ := Option.bind_eq_some_iff.mp hboth
  obtain ⟨c, hc⟩ := (advance_iff_step (s := { s with issue := k :: j :: rest }) rfl rs).mp hk
  obtain ⟨d, hd⟩ := (advance_iff_step (s := ⟨s.block, c, rs, j :: rest⟩) rfl t.requests).mp hj
  refine ⟨_, (runSteps_succ_of_step hc).trans (runSteps_succ_of_step hd), rfl, hti.symm, rfl⟩

end Sys2Proof.Machine
end

section
/-! The transmission attempt (44_frame_loss_and_attempt R134, R135): its four lines, performed one after the other, and
what the request holds after each; and the ports of the four units (30_encoding R78). -/

namespace Sys2Proof.Machine

/-- R121: a position drawn for a flip is one of the stream. -/
theorem pos_lt_of_wf_inj {bits : Bits} {p : Prob} {pos : Nat} (h : (Instr.inj bits p true pos).wf = true) :
    pos < bits.length := by
  simp only [Instr.wf, Bool.and_eq_true, Bool.not_true, Bool.false_or, decide_eq_true_eq] at h
  obtain ⟨-, hpos⟩ := h
  exact hpos

/-! ### One line of an attempt, for whatever request has it next -/

theorem performNext_encLine {q : Request} {x : List Byte} {ls : List Line} (hp : q.program = encLine x :: ls)
    (hn : lookupName q.bindings ['s'] = none) :
    performNext q = some (q.receive ['s'] (.ok (.stream (enc x)))) := by
  have ht : transactionOf (encLine x) q.bindings = .ok (encode (.enc x)) := by
    simp [transactionOf, encLine, hn, resolveArgs, resolveArg, encode, opCode, operandValues, drawValues]
  exact performNext_of_line hp ht (decodeUndoesEncode _)

/-- R120: without a flip INJ's `pos` is unused. -/
theorem answer_inj_false (bits : Bits) (p : Prob) (pos : Nat) :
    answer (.inj bits p false 0) = answer (.inj bits p false pos) := rfl

theorem performNext_injLine {q : Request} {c : Config.Cfg} {d : AttemptDraws} {ls : List Line} {s : Bits}
    (hp : q.program = injLine c d :: ls) (hn : lookupName q.bindings ['t'] = none)
    (hs : lookupName q.bindings ['s'] = some (.ok (.stream s))) :
    performNext q = (answer (.inj s c.pErr d.fire d.pos)).map (q.receive ['t']) := by
  have ht : transactionOf (injLine c d) q.bindings =
      .ok ⟨0b110#3, [.bits s, .prob c.pErr], injDrawList d.fire d.pos⟩ := by
    simp [transactionOf, injLine, hn, hs, resolveArgs, resolveArg, foundValue, Result.value]
  cases hf : d.fire with
  | false =>
    rw [hf] at ht
    rw [performNext_of_line (i := .inj s c.pErr false 0) hp ht rfl, answer_inj_false]
    rfl
  | true =>
    rw [hf] at ht
    exact performNext_of_line hp ht rfl

theorem performNext_decLine {q : Request} {ls : List Line} {t : Bits} (hp : q.program = decLine :: ls)
    (hn : lookupName q.bindings ['y'] = none) (ht : lookupName q.bindings ['t'] = some (.ok (.stream t))) :
    performNext q = (answer (.dec t)).map (q.receive ['y']) := by
  have htr : transactionOf decLine q.bindings = .ok (encode (.dec t)) := by
    simp [transactionOf, decLine, hn, ht, resolveArgs, resolveArg, foundValue, Result.value, encode, opCode,
      operandValues, drawValues]
  exact performNext_of_line hp htr (decodeUndoesEncode _)

theorem performNext_loseLine {q : Request} {c : Config.Cfg} {d : AttemptDraws} {ls : List Line}
    (hp : q.program = loseLine c d :: ls) (hn : lookupName q.bindings ['l'] = none) :
    performNext q = (answer (.lose c.qLoss d.lose)).map (q.receive ['l']) := by
  have ht : transactionOf (loseLine c d) q.bindings = .ok (encode (.lose c.qLoss d.lose)) := by
    simp [transactionOf, loseLine, hn, resolveArgs, resolveArg, encode, opCode, operandValues, drawValues]
  exact performNext_of_line hp ht (decodeUndoesEncode _)

/-! ### An attempt, line by line -/

/-- What an attempt that comes to its end has bound, in the order of its lines. -/
def attemptBindings (x : List Byte) (d : AttemptDraws) : Bindings :=
  [(['s'], .ok (.stream (enc x))), (['t'], .ok (.stream (inj (enc x) d.fire d.pos))), (['y'], .ok (.bytes x)),
    (['l'], .ok (.lost d.lose))]

/-- The same with the loss decision first, where a lost frame is not decoded (C4). -/
def lossFirstBindings (x : List Byte) (d : AttemptDraws) : Bindings :=
  [(['s'], .ok (.stream (enc x))), (['t'], .ok (.stream (inj (enc x) d.fire d.pos))), (['l'], .ok (.lost d.lose))] ++
    (if d.lose then [] else [(['y'], .ok (.bytes x))])

/-- A request that has performed `m` of these lines, of all of which these are the bindings. -/
def midRun (ls : List Line) (b : Bindings) (m : Nat) : Request := ⟨ls.drop m, b.take m, ls.take m⟩

/-- A request of `n` lines that have a meaning, one after the other. -/
theorem performN_midRun {ls : List Line} {b : Bindings} {n : Nat}
    (h : ∀ m < n, performNext (midRun ls b m) = some (midRun ls b (m + 1))) {m : Nat} (hm : m ≤ n) :
    performN m (midRun ls b 0) = some (midRun ls b m) := by
  have hfrom : ∀ j k, k + j ≤ n → performN j (midRun ls b k) = some (midRun ls b (k + j)) := by
    intro j
    induction j with
    | zero => exact fun k _ => rfl
    | succ j ih =>
      intro k hk
      rw [performN, h k (by omega), Option.bind_some, ih (k + 1) (by omega), Nat.add_right_comm, Nat.add_assoc]
  simpa using hfrom m 0 (by omega)

/-- DEC of the injected stream gives the payload (R128). -/
theorem answer_dec_inj_enc (x : List Byte) (fire : Bool) (pos : Nat) :
    answer (.dec (inj (enc x) fire pos)) = some (.ok (.bytes x)) :=
  answer_of_exec (exec_dec_of_nibbles (inj_length ..) (nibblesOf_inj_enc x fire pos))

/-- R121, R131: the draws of an attempt are possible when those of its INJ and of its LOSE are. -/
theorem possible_iff_wf {p q : Rat} (hp0 : 0 ≤ p) (hp1 : p ≤ 1) (hq0 : 0 ≤ q) (hq1 : q ≤ 1) (x : List Byte)
    (d : AttemptDraws) : d.possible p q (14 * x.length) = true ↔
      (Instr.inj (enc x) (.num p) d.fire d.pos).wf = true ∧ (Instr.lose (.num q) d.lose).wf = true := by
  simp [AttemptDraws.possible, Instr.wf, inUnitRange, enc_length, hp0, hp1, hq0, hq1]

section
variable {x : List Byte} {c : Config.Cfg} {d : AttemptDraws}

theorem performNext_attempt_zero :
    performNext (midRun (attemptProgram x c d) (attemptBindings x d) 0) =
      some (midRun (attemptProgram x c d) (attemptBindings x d) 1) :=
  performNext_encLine rfl rfl

theorem performNext_attempt_one :
    performNext (midRun (attemptProgram x c d) (attemptBindings x d) 1) =
      (answer (.inj (enc x) c.pErr d.fire d.pos)).map
        ((midRun (attemptProgram x c d) (attemptBindings x d) 1).receive ['t']) :=
  performNext_injLine rfl rfl rfl

theorem performNext_attempt_two :
    performNext (midRun (attemptProgram x c d) (attemptBindings x d) 2) =
      some (midRun (attemptProgram x c d) (attemptBindings x d) 3) := by
  rw [performNext_decLine (t := inj (enc x) d.fire d.pos) rfl rfl rfl, answer_dec_inj_enc]
  rfl

theorem performNext_attempt_three :
    performNext (midRun (attemptProgram x c d) (attemptBindings x d) 3) =
      (answer (.lose c.qLoss d.lose)).map ((midRun (attemptProgram x c d) (attemptBindings x d) 3).receive ['l']) :=
  performNext_loseLine rfl rfl

/-- R134: with possible draws each line of an attempt completes, and the next is performed with what it bound. -/
theorem performNext_attempt (hinj : (Instr.inj (enc x) c.pErr d.fire d.pos).wf = true)
    (hlose : (Instr.lose c.qLoss d.lose).wf = true) : ∀ m < 4,
    performNext (midRun (attemptProgram x c d) (attemptBindings x d) m) =
      some (midRun (attemptProgram x c d) (attemptBindings x d) (m + 1)) := by
  intro m hm
  interval_cases m
  · exact performNext_attempt_zero
  · rw [performNext_attempt_one, answer_inj_iff.mpr ⟨hinj, rfl⟩]
    rfl
  · exact performNext_attempt_two
  · rw [performNext_attempt_three, answer_lose_iff.mpr ⟨hlose, rfl⟩]
    rfl

/-- R134: the request of an attempt with possible draws, after `m` of its lines. -/
theorem performN_attempt (hinj : (Instr.inj (enc x) c.pErr d.fire d.pos).wf = true)
    (hlose : (Instr.lose c.qLoss d.lose).wf = true) {m : Nat} (hm : m ≤ 4) :
    performN m (attemptRequest x c d) = some (midRun (attemptProgram x c d) (attemptBindings x d) m) :=
  performN_midRun (performNext_attempt hinj hlose) hm

/-- Log 6: an attempt comes to its end only with draws that INJ and LOSE answer. -/
theorem wf_of_performN_attempt {r : Request} (h : performN 4 (attemptRequest x c d) = some r) :
    (Instr.inj (enc x) c.pErr d.fire d.pos).wf = true ∧ (Instr.lose c.qLoss d.lose).wf = true := by
  change (performNext (midRun (attemptProgram x c d) (attemptBindings x d) 0)).bind (performN 3) = some r at h
  rw [performNext_attempt_zero, Option.bind_some, performN, performNext_attempt_one] at h
  cases hinj : answer (.inj (enc x) c.pErr d.fire d.pos) with
  | none =>
    rw [hinj] at h
    cases h
  | some a =>
    obtain ⟨hwf, rfl⟩ := answer_inj_iff.mp hinj
    refine ⟨hwf, ?_⟩
    rw [hinj] at h
    change (performNext (midRun (attemptProgram x c d) (attemptBindings x d) 2)).bind (performN 1) = some r at h
    rw [performNext_attempt_two, Option.bind_some, performN, performNext_attempt_three] at h
    cases hlose : answer (.lose c.qLoss d.lose) with
    | none =>
      rw [hlose] at h
      cases h
    | some b => exact (wf_iff_answer _).mpr ⟨b, hlose⟩

/-- C4: with possible draws the lines of the other order complete too. -/
theorem performN_lossFirst (hinj : (Instr.inj (enc x) c.pErr d.fire d.pos).wf = true)
    (hlose : (Instr.lose c.qLoss d.lose).wf = true) :
    performN 4 (lossFirstRequest x c d) = some ⟨[], lossFirstBindings x d, attemptLossFirst x c d⟩ := by
  have hzero : performNext (midRun (attemptLossFirst x c d) (lossFirstBindings x d) 0) =
      some (midRun (attemptLossFirst x c d) (lossFirstBindings x d) 1) := performNext_encLine rfl rfl
  have hone : performNext (midRun (attemptLossFirst x c d) (lossFirstBindings x d) 1) =
      some (midRun (attemptLossFirst x c d) (lossFirstBindings x d) 2) := by
    rw [performNext_injLine (s := enc x) rfl rfl rfl, answer_inj_iff.mpr ⟨hinj, rfl⟩]
    rfl
  have htwo : performNext (midRun (attemptLossFirst x c d) (lossFirstBindings x d) 2) =
      some (midRun (attemptLossFirst x c d) (lossFirstBindings x d) 3) := by
    rw [performNext_loseLine rfl rfl, answer_lose_iff.mpr ⟨hlose, rfl⟩]
    rfl
  have hthree : performNext (midRun (attemptLossFirst x c d) (lossFirstBindings x d) 3) =
      some ⟨[], lossFirstBindings x d, attemptLossFirst x c d⟩ := by
    obtain ⟨fire, pos, lose⟩ := d
    cases lose with
    | true => exact performNext_of_program_nil rfl
    | false =>
      rw [performNext_decLine (t := inj (enc x) fire pos) rfl rfl rfl, answer_dec_inj_enc]
      rfl
  change (performNext (midRun (attemptLossFirst x c d) (lossFirstBindings x d) 0)).bind (performN 3) = _
  simp only [performN, hzero, hone, htwo, hthree, Option.bind_some]

end

/-! ### The outcome of an attempt -/

theorem attemptOutcome_attemptBindings (x : List Byte) (d : AttemptDraws) :
    attemptOutcome (attemptBindings x d) = some (if d.lose then .frameLost else .delivered x) := by
  obtain ⟨fire, pos, lose⟩ := d
  cases lose <;> rfl

theorem attemptOutcome_lossFirstBindings (x : List Byte) (d : AttemptDraws) :
    attemptOutcome (lossFirstBindings x d) = some (if d.lose then .frameLost else .delivered x) := by
  obtain ⟨fire, pos, lose⟩ := d
  cases lose <;> rfl

/-- The outcome of an attempt alone is that of its request after four lines. -/
theorem attemptResult_eq_some_iff (x : List Byte) (c : Config.Cfg) (d : AttemptDraws) (o : AttemptOutcome) :
    attemptResult x c d = some o ↔
      ∃ r, performN 4 (attemptRequest x c d) = some r ∧ attemptOutcome r.bindings = some o := by
  constructor
  · intro h
    unfold attemptResult at h
    split at h
    next t ht =>
      obtain ⟨r, hr, ho⟩ := Option.bind_eq_some_iff.mp h
      obtain ⟨r', hr', hreq⟩ := performN_of_runSteps (k := 0) ht rfl
      rw [hr, Option.some.injEq] at hreq
      exact ⟨r, hreq ▸ hr', ho⟩
    next => cases h
    next => cases h
  · rintro ⟨r, hr, ho⟩
    obtain ⟨u, hu, hreq⟩ := runSteps_soloState_of_performN hr
    rw [attemptResult, hu]
    simpa [hreq] using ho

/-- R135: with a possible draw an attempt delivers the payload or loses it, by the draw of LOSE; with any other it comes
to no outcome (log 6). -/
theorem attemptResult_iff {p q : Rat} (hp0 : 0 ≤ p) (hp1 : p ≤ 1) (hq0 : 0 ≤ q) (hq1 : q ≤ 1) (x : List Byte)
    (d : AttemptDraws) (o : AttemptOutcome) :
    attemptResult x ⟨.num p, .num q⟩ d = some o ↔
      d.possible p q (14 * x.length) = true ∧ o = if d.lose then .frameLost else .delivered x := by
  rw [attemptResult_eq_some_iff, possible_iff_wf hp0 hp1 hq0 hq1]
  constructor
  · rintro ⟨r, hr, ho⟩
    obtain ⟨hinj, hlose⟩ := wf_of_performN_attempt hr
    have hend := performN_attempt hinj hlose (le_refl 4)
    rw [hr, Option.some.injEq] at hend
    subst hend
    exact ⟨⟨hinj, hlose⟩, Option.some.inj (ho.symm.trans (attemptOutcome_attemptBindings x d))⟩
  · rintro ⟨⟨hinj, hlose⟩, rfl⟩
    exact ⟨_, performN_attempt hinj hlose (le_refl 4), attemptOutcome_attemptBindings x d⟩

/-- R131, R135: whatever `p` is, a draw of LOSE is possible in an attempt exactly when `q` allows it, on a stream
that has a position to flip. -/
theorem exists_possible_iff {p q : Rat} {L : Nat} (hp0 : 0 ≤ p) (hL : 0 < L) (b : Bool) :
    (∃ d : AttemptDraws, d.possible p q L = true ∧ d.lose = b) ↔ allowsDraw (.num q) b = true := by
  constructor
  · rintro ⟨d, hd, rfl⟩
    simp only [AttemptDraws.possible, Bool.and_eq_true] at hd
    exact hd.2
  · intro hb
    obtain hp | hp := hp0.lt_or_eq
    · have hfire : allowsDraw (.num p) true = true := decide_eq_true hp
      exact ⟨⟨true, 0, b⟩, by simp [AttemptDraws.possible, hfire, hb, hL], rfl⟩
    · have hquiet : allowsDraw (.num p) false = true := decide_eq_true (hp ▸ one_pos)
      exact ⟨⟨false, 0, b⟩, by simp [AttemptDraws.possible, hquiet, hb], rfl⟩

/-! ### The obligations of the attempt -/

/-- Settles O50: the request after `m` lines is `midRun`, whose first line still gives ENC its payload. -/
theorem attemptHoldsItsValues : Obligations.AttemptHoldsItsValues := by
  intro x p q d m hp0 hp1 hq0 hq1 hd hm
  obtain ⟨hinj, hlose⟩ := (possible_iff_wf hp0 hp1 hq0 hq1 x d).mp hd
  have hissue : List.replicate 4 0 = List.replicate m 0 ++ List.replicate (4 - m) 0 := by
    rw [List.replicate_append_replicate, Nat.add_sub_cancel' hm]
  obtain ⟨t, ht, hreq⟩ := runSteps_of_performN (performN_attempt (c := ⟨.num p, .num q⟩) hinj hlose hm)
    (s := soloState (attemptRequest x ⟨.num p, .num q⟩ d) 4) rfl hissue
  refine ⟨t, _, ht, hreq, ?_, rfl, ?_, ?_, ?_, ?_⟩
  · rw [Request.payload, midRun, List.take_append_drop]
    exact payloadOf_encLine ..
  all_goals
    intro hle
    interval_cases m <;> rfl

/-- Settles O51: both requests come to their end, with the draw of LOSE and, when it is false, the payload. -/
theorem lossFirstAttemptAgrees : Obligations.LossFirstAttemptAgrees := by
  intro x p q d hp0 hp1 hq0 hq1 hd
  obtain ⟨hinj, hlose⟩ := (possible_iff_wf hp0 hp1 hq0 hq1 x d).mp hd
  obtain ⟨t, ht, hr⟩ := runSteps_soloState_of_performN
    (performN_attempt (c := ⟨.num p, .num q⟩) hinj hlose (le_refl 4))
  obtain ⟨u, hu, hv⟩ := runSteps_soloState_of_performN (performN_lossFirst (c := ⟨.num p, .num q⟩) hinj hlose)
  refine ⟨t, u, _, _, ht, hr, hu, hv, rfl, ?_⟩
  exact (attemptOutcome_lossFirstBindings x d).trans (attemptOutcome_attemptBindings x d).symm

/-! ### The ports of the units -/

/-- Settles O34: a unit's outputs are the parts of its operation's result. -/
theorem portsCarryTheOperations : Obligations.PortsCarryTheOperations := by
  refine ⟨fun n => ⟨rfl, extractLsb'_encn n⟩, fun c => rfl, fun y => rfl, fun bits p fire pos hwf => ?_,
    fun bits fire pos => ?_⟩
  · have hpos : (fire && decide (bits.length ≤ pos)) = false := by
      cases fire with
      | false => rfl
      | true => simpa using pos_lt_of_wf_inj hwf
    rw [answer_inj_iff.mpr ⟨hwf, rfl⟩, injectorUnit, if_neg (by simp [hpos])]
  · unfold injectorUnit
    split
    · rw [List.length_map, List.length_range]
    · exact inj_length bits fire pos

end Sys2Proof.Machine
end

section
/-! The laws of the draws (43_bit_error_injector R122, 44_frame_loss_and_attempt R131, R132): probabilities of events of
one operation, of one attempt, of two INJ on one stream and of a run of any length. -/

namespace Sys2Proof.Machine

variable {α β : Type}

/-! ### Products -/

/-- What cannot happen has probability 0. -/
@[simp] theorem prob_false (d : FinDist α) : FinDist.prob d (fun _ => false) = 0 := by
  simp [FinDist.prob]

/-- An event of two independent draws, by the first of them. -/
theorem prob_both_eq_sum (d : FinDist α) (e : FinDist β) (ev : α × β → Bool) :
    FinDist.prob (FinDist.both d e) ev = (d.map fun v => v.2 * FinDist.prob e fun b => ev (v.1, b)).sum := by
  simp only [FinDist.both, prob_flatMap, prob_map_mul]

/-- R132: events of two independent draws have the product of their probabilities. -/
theorem prob_both_and (d : FinDist α) (e : FinDist β) (f : α → Bool) (g : β → Bool) :
    FinDist.prob (FinDist.both d e) (fun v => f v.1 && g v.2) = FinDist.prob d f * FinDist.prob e g := by
  rw [prob_both_eq_sum, ← sum_map_mul_prob]
  congr 1
  refine List.map_congr_left fun v _ => ?_
  cases hf : f v.1 <;> simp [hf]

/-- Values of probability 0 do not matter to an event. -/
theorem prob_congr_of_ne_zero {d : FinDist α} {ev fv : α → Bool} (h : ∀ v ∈ d, v.2 ≠ 0 → ev v.1 = fv v.1) :
    FinDist.prob d ev = FinDist.prob d fv := by
  induction d with
  | nil => rfl
  | cons v d ih =>
    rw [show v :: d = (v.1, v.2) :: d from rfl, prob_cons, prob_cons, ih fun w hw => h w (List.mem_cons_of_mem v hw)]
    by_cases hv : v.2 = 0
    · simp [hv]
    · rw [h v List.mem_cons_self hv]

/-! ### INJ and LOSE -/

/-- Values listed for the first `L` numbers, all of one probability. -/
theorem prob_map_range (g : Nat → α) (y : Rat) (L : Nat) (ev : α → Bool) :
    FinDist.prob ((List.range L).map fun i => (g i, y)) ev =
      ((Finset.range L).filter fun i => ev (g i) = true).card * y := by
  induction L with
  | zero => simp
  | succ L ih =>
    rw [List.range_succ, List.map_append, prob_append, ih, List.map_singleton, prob_cons, prob_nil, add_zero,
      Finset.range_add_one, Finset.filter_insert]
    split
    · rw [Finset.card_insert_of_notMem (by simp)]
      push_cast
      ring
    · rw [add_zero]

/-- R122: an event of INJ's draws, by the set of the positions in it. -/
theorem prob_injLaw (p : Rat) {L : Nat} (h : L ≠ 0) {ev : Bool × Nat → Bool} {S : Finset Nat}
    (hS : ∀ i, i ∈ S ↔ i < L ∧ ev (true, i) = true) :
    FinDist.prob (injLaw p L) ev = (if ev (false, 0) then 1 - p else 0) + S.card * (p / L) := by
  have hfilter : (Finset.range L).filter (fun i => ev (true, i) = true) = S := by
    ext i
    rw [Finset.mem_filter, Finset.mem_range, hS]
  rw [injLaw_of_ne_zero p h, prob_cons, prob_map_range, hfilter]

/-- R122: `fire` is true with probability `p`, on a stream of any length. -/
theorem prob_injLaw_fire (p : Rat) (L : Nat) (e : Bool → Bool) :
    FinDist.prob (injLaw p L) (fun d => e d.1) = (if e false then 1 - p else 0) + if e true then p else 0 := by
  obtain rfl | hL := Nat.eq_zero_or_pos L
  · simp [injLaw, prob_cons]
  · have hne : (L : Rat) ≠ 0 := by exact_mod_cast hL.ne'
    cases he : e true with
    | false => simp [prob_injLaw p hL.ne' (ev := fun d => e d.1) (S := ∅) (by simp [he])]
    | true =>
      simp [prob_injLaw p hL.ne' (ev := fun d => e d.1) (S := Finset.range L) (by simp [he]), mul_div_cancel₀ p hne]

/-- R131. -/
theorem prob_loseLaw (q : Rat) (e : Bool → Bool) :
    FinDist.prob (loseLaw q) e = (if e true then q else 0) + if e false then 1 - q else 0 := by
  simp [loseLaw, prob_cons]

theorem prob_injLaw_true (p : Rat) (L : Nat) : FinDist.prob (injLaw p L) (fun _ => true) = 1 :=
  (prob_injLaw_fire p L fun _ => true).trans (by simp)

/-- R121: what INJ's law lists with a probability that is not 0 is possible. -/
theorem possible_of_mem_injLaw {p : Rat} {L : Nat} (hL : L ≠ 0) (h0 : 0 ≤ p) (h1 : p ≤ 1) {v : (Bool × Nat) × Rat}
    (hv : v ∈ injLaw p L) (hne : v.2 ≠ 0) :
    allowsDraw (.num p) v.1.1 = true ∧ (!v.1.1 || decide (v.1.2 < L)) = true := by
  rw [injLaw_of_ne_zero p hL, List.mem_cons, List.mem_map] at hv
  obtain rfl | ⟨i, hi, rfl⟩ := hv
  · exact ⟨decide_eq_true (lt_of_le_of_ne h1 fun h => hne (by simp [h])), rfl⟩
  · exact ⟨decide_eq_true (lt_of_le_of_ne h0 fun h => hne (by simp [← h])), decide_eq_true (List.mem_range.mp hi)⟩

/-- R131: what LOSE's law lists with a probability that is not 0 is possible. -/
theorem possible_of_mem_loseLaw {q : Rat} (h0 : 0 ≤ q) (h1 : q ≤ 1) {v : Bool × Rat} (hv : v ∈ loseLaw q)
    (hne : v.2 ≠ 0) : allowsDraw (.num q) v.1 = true := by
  simp only [loseLaw, List.mem_cons, List.not_mem_nil, or_false] at hv
  obtain rfl | rfl := hv
  · exact decide_eq_true (lt_of_le_of_ne h0 (Ne.symm hne))
  · exact decide_eq_true (lt_of_le_of_ne h1 fun h => hne (by simp [h]))

/-! ### One attempt -/

theorem prob_attemptLaw (p q : Rat) (L : Nat) (ev : AttemptDraws → Bool) :
    FinDist.prob (attemptLaw p q L) ev =
      FinDist.prob (FinDist.both (injLaw p L) (loseLaw q)) (fun v => ev ⟨v.1.1, v.1.2, v.2⟩) :=
  prob_map (fun v : (Bool × Nat) × Bool => (⟨v.1.1, v.1.2, v.2⟩ : AttemptDraws)) _ ev

/-- R132: `fire` and `lose` of one attempt are independent. -/
theorem prob_attemptLaw_fire_lose (p q : Rat) (L : Nat) (e f : Bool → Bool) :
    FinDist.prob (attemptLaw p q L) (fun d => e d.fire && f d.lose) =
      ((if e false then 1 - p else 0) + if e true then p else 0) *
        ((if f true then q else 0) + if f false then 1 - q else 0) := by
  rw [prob_attemptLaw, ← prob_injLaw_fire p L e, ← prob_loseLaw q f]
  exact prob_both_and (injLaw p L) (loseLaw q) (fun d => e d.1) f

/-- R121, R131: what the law of an attempt lists with a probability that is not 0 is possible. -/
theorem possible_of_mem_attemptLaw {p q : Rat} {L : Nat} (hL : L ≠ 0) (hp0 : 0 ≤ p) (hp1 : p ≤ 1) (hq0 : 0 ≤ q)
    (hq1 : q ≤ 1) {v : AttemptDraws × Rat} (hv : v ∈ attemptLaw p q L) (hne : v.2 ≠ 0) :
    v.1.possible p q L = true := by
  simp only [attemptLaw, FinDist.both, List.mem_map, List.mem_flatMap] at hv
  obtain ⟨-, ⟨a, ha, b, hb, rfl⟩, rfl⟩ := hv
  obtain ⟨hfire, hpos⟩ := possible_of_mem_injLaw hL hp0 hp1 ha (left_ne_zero_of_mul hne)
  have hlose := possible_of_mem_loseLaw hq0 hq1 hb (right_ne_zero_of_mul hne)
  simp only [AttemptDraws.possible, hfire, hpos, hlose, Bool.and_true]

/-! ### Runs -/

/-- R122, R131: the draws listed for an operation have total probability 1. -/
theorem prob_law_true (o : DrawingOp) : FinDist.prob o.law (fun _ => true) = 1 := by
  cases o with
  | inj p L =>
    rw [DrawingOp.law, prob_map (fun v : Bool × Nat => OpDraw.inj v.1 v.2)]
    exact prob_injLaw_true p L
  | lose q =>
    rw [DrawingOp.law, prob_map OpDraw.lose, prob_loseLaw]
    simp

theorem prob_runLaw_true (host : HostPolicy) (m : Nat) (h : List OpDraw) :
    FinDist.prob (runLaw host m h) (fun _ => true) = 1 := by
  induction m generalizing h with
  | zero => simp [runLaw, prob_cons]
  | succ m ih =>
    cases ho : host h with
    | none => simp [runLaw_over ho, prob_cons]
    | some o =>
      rw [prob_runLaw_succ ho]
      simp only [ih]
      simpa [prob_law_true o] using sum_map_mul_prob o.law (fun _ => true) 1

/-- R122, R132: after `m` draws, an event of them and one of the draws of the operation that follows it. -/
theorem prob_runLaw_past_and {host : HostPolicy} {past : List OpDraw → Bool} {o : DrawingOp} (e : OpDraw → Bool)
    {m : Nat} {h : List OpDraw} (hpast : ∀ g, past g = true → g.length = h.length + m ∧ host g = some o) :
    FinDist.prob (runLaw host (m + 1) h) (fun g => past (g.take (h.length + m)) && (g[h.length + m]?).any e) =
      FinDist.prob (runLaw host m h) past * FinDist.prob o.law e := by
  have hnever : ∀ {g}, host g = none → past g = false := fun {g} hg => by
    rw [← Bool.not_eq_true]
    intro hp
    rw [(hpast g hp).2] at hg
    cases hg
  induction m generalizing h with
  | zero =>
    cases ho : host h with
    | none => simp [runLaw, ho, prob_cons, hnever ho]
    | some o' =>
      rw [prob_runLaw_succ ho]
      cases hp : past h with
      | false => simp [runLaw, prob_cons, hp]
      | true =>
        rw [(hpast h hp).2] at ho
        cases ho
        simpa [runLaw, prob_cons, hp] using sum_map_mul_prob o.law e 1
  | succ m ih =>
    cases ho : host h with
    | none => simp [runLaw_over ho, prob_cons, hnever ho]
    | some o' =>
      rw [prob_runLaw_succ ho, prob_runLaw_succ ho, ← List.sum_map_mul_right]
      congr 1
      refine List.map_congr_left fun v _ => ?_
      have hlen : (h ++ [v.1]).length + m = h.length + (m + 1) := by
        rw [List.length_append, List.length_singleton]
        omega
      rw [mul_assoc, ← ih (h := h ++ [v.1]) (by rwa [hlen]), hlen]

/-- R122, R132: a run that still has these operations to draw, an event for each of them. -/
theorem prob_runLaw_inSequence {done os : List DrawingOp} {h : List OpDraw} (hlen : h.length = done.length)
    {es : List (OpDraw → Bool)} (hes : es.length = os.length) :
    FinDist.prob (runLaw (inSequence (done ++ os)) os.length h) (fun w => allIn es (w.drop h.length)) =
      (List.zipWith (fun o e => FinDist.prob o.law e) os es).prod := by
  induction os generalizing done h es with
  | nil =>
    obtain rfl := List.length_eq_zero_iff.mp hes
    simp [runLaw, prob_cons, allIn]
  | cons o os ih =>
    obtain ⟨e, es, rfl⟩ := List.exists_cons_of_length_eq_add_one hes
    have ho : inSequence (done ++ o :: os) h = some o := by simp [inSequence, hlen]
    rw [List.length_cons, prob_runLaw_succ ho, List.zipWith_cons_cons, List.prod_cons, ← sum_map_mul_prob]
    congr 1
    refine List.map_congr_left fun v _ => ?_
    have hev : ∀ w ∈ runLaw (inSequence (done ++ o :: os)) os.length (h ++ [v.1]),
        allIn (e :: es) (w.1.drop h.length) = (e v.1 && allIn es (w.1.drop (h ++ [v.1]).length)) := by
      intro w hw
      obtain ⟨u, hu⟩ := runLaw_prefix hw
      rw [← hu, List.drop_left, List.append_assoc, List.drop_left]
      rfl
    have hrest := ih (done := done ++ [o]) (h := h ++ [v.1]) (by simp [hlen]) (Nat.succ.inj hes)
    rw [List.append_assoc, List.singleton_append] at hrest
    rw [prob_congr (fv := fun w => e v.1 && allIn es (w.drop (h ++ [v.1]).length)) hev, ← hrest]
    cases he : e v.1 <;> simp

end Sys2Proof.Machine
end

section
/-! The probabilities the rules state (43_bit_error_injector R122, R124, 44_frame_loss_and_attempt R132, R135, R136,
70_reset_and_hazards R163). -/

namespace Sys2Proof.Machine

/-! ### Which positions an event of INJ holds -/

/-- Another stream is made by a flip within it. -/
theorem flipAt_ne_self {s : Bits} {i : Nat} (h : i < s.length) : flipAt s i ≠ s := by
  intro he
  have hd := streamDistance_flipAt s i
  rw [he, streamDistance_self, if_pos h] at hd
  cases hd

/-- Flips at different positions make different streams. -/
theorem flipAt_eq_flipAt_iff {s : Bits} {i j : Nat} (h : i < s.length) : flipAt s j = flipAt s i ↔ j = i := by
  constructor
  · intro he
    by_contra hne
    have hi := congrArg (·[i]?) he
    simp only [flipAt_getElem?, if_neg (Ne.symm hne), if_true, List.getElem?_eq_getElem h] at hi
    simp at hi
  · rintro rfl
    rfl

/-- R124: a given codeword, of seven positions, is hit with probability `p / m`. -/
theorem prob_injLaw_codeword (p : Rat) {m k : Nat} (h : k < m) :
    FinDist.prob (injLaw p (7 * m)) (fun d => d.1 && decide (d.2 / 7 = k)) = p / m := by
  have hm : (m : Rat) ≠ 0 := by exact_mod_cast (show m ≠ 0 by omega)
  rw [prob_injLaw p (by omega) (S := Finset.Ico (7 * k) (7 * k + 7)) fun i => by
      simp only [Finset.mem_Ico, Bool.true_and, decide_eq_true_eq]
      omega,
    Nat.card_Ico, Nat.add_sub_cancel_left, Bool.false_and, if_neg Bool.false_ne_true]
  push_cast
  field_simp
  ring

/-- R163: one of the six other positions of the codeword of `i` is hit with probability `6 p / (7 m)`. -/
theorem prob_injLaw_codeword_other (p : Rat) {m i : Nat} (h : i < 7 * m) :
    FinDist.prob (injLaw p (7 * m)) (fun d => d.1 && decide (d.2 / 7 = i / 7 ∧ d.2 ≠ i)) = 6 * p / (7 * m) := by
  have hmem : i ∈ Finset.Ico (7 * (i / 7)) (7 * (i / 7) + 7) := by
    rw [Finset.mem_Ico]
    omega
  rw [prob_injLaw p (by omega) (S := (Finset.Ico (7 * (i / 7)) (7 * (i / 7) + 7)).erase i) fun j => by
      simp only [Finset.mem_erase, Finset.mem_Ico, Bool.true_and, decide_eq_true_eq]
      omega,
    Finset.card_erase_of_mem hmem, Nat.card_Ico, Nat.add_sub_cancel_left, Bool.false_and, if_neg Bool.false_ne_true]
  push_cast
  ring

/-! ### The obligations of one attempt -/

/-- Settles O55: a product of the probabilities of the draws. -/
theorem fireAndLoseAreIndependent : Obligations.FireAndLoseAreIndependent := by
  intro p q L
  refine ⟨?_, ?_, ?_, ?_⟩
  · exact (prob_attemptLaw_fire_lose p q L (!·) (!·)).trans (by simp)
  · exact (prob_attemptLaw_fire_lose p q L id (!·)).trans (by simp)
  · exact (prob_attemptLaw_fire_lose p q L (!·) id).trans (by simp)
  · exact (prob_attemptLaw_fire_lose p q L id id).trans (by simp)

/-- R132, R135: the frame is kept or lost by the draw of LOSE alone. -/
theorem prob_attemptLaw_lose (p q : Rat) (L : Nat) (f : Bool → Bool) :
    FinDist.prob (attemptLaw p q L) (fun d => f d.lose) = (if f true then q else 0) + if f false then 1 - q else 0 :=
  (prob_attemptLaw_fire_lose p q L (fun _ => true) f).trans (by simp)

/-- R135: an outcome of an attempt has the probability of the draw of LOSE it stands for. -/
theorem prob_attemptResult {x : List Byte} {p q : Rat} (hx : x ≠ []) (hp0 : 0 ≤ p) (hp1 : p ≤ 1) (hq0 : 0 ≤ q)
    (hq1 : q ≤ 1) {o : AttemptOutcome} {f : Bool → Bool}
    (hf : ∀ b, o = (if b then .frameLost else .delivered x) ↔ f b = true) :
    FinDist.prob (attemptLaw p q (14 * x.length)) (fun d => decide (attemptResult x ⟨.num p, .num q⟩ d = some o)) =
      (if f true then q else 0) + if f false then 1 - q else 0 := by
  have hL : 14 * x.length ≠ 0 := by simp [hx]
  rw [← prob_attemptLaw_lose p q (14 * x.length) f]
  refine prob_congr_of_ne_zero fun v hv hne => ?_
  have hpos := possible_of_mem_attemptLaw hL hp0 hp1 hq0 hq1 hv hne
  rw [Bool.eq_iff_iff, decide_eq_true_iff, attemptResult_iff hp0 hp1 hq0 hq1, hf]
  exact and_iff_right hpos

/-- Settles O49: the lines complete on the possible draws and no others, with the outcome of the draw of LOSE. -/
theorem attemptDeliversIntactOrLoses : Obligations.AttemptDeliversIntactOrLoses := by
  refine ⟨fun x p q d hp0 hp1 hq0 hq1 hd => ?_, fun x p q o hx hp0 hp1 hq0 hq1 => ?_,
    fun x p q hx hp0 hp1 hq0 hq1 => ⟨?_, ?_⟩⟩
  · obtain ⟨hinj, hlose⟩ := (possible_iff_wf hp0 hp1 hq0 hq1 x d).mp hd
    obtain ⟨t, ht, hr⟩ := runSteps_soloState_of_performN
      (performN_attempt (c := ⟨.num p, .num q⟩) hinj hlose (le_refl 4))
    exact ⟨t, _, ht, hr, rfl, rfl, attemptOutcome_attemptBindings x d⟩
  · have hL : 0 < 14 * x.length := by simp [List.length_pos_iff, hx]
    simp only [attemptResult_iff hp0 hp1 hq0 hq1]
    constructor
    · rintro ⟨d, hd, rfl⟩
      have hq := (exists_possible_iff hp0 hL d.lose).mp ⟨d, hd, rfl⟩
      cases hb : d.lose <;> rw [hb] at hq
      · exact .inl ⟨rfl, of_decide_eq_true hq⟩
      · exact .inr ⟨rfl, of_decide_eq_true hq⟩
    · rintro (⟨rfl, hq⟩ | ⟨rfl, hq⟩)
      · obtain ⟨d, hd, hb⟩ := (exists_possible_iff hp0 hL false).mpr (decide_eq_true hq)
        exact ⟨d, hd, by simp [hb]⟩
      · obtain ⟨d, hd, hb⟩ := (exists_possible_iff hp0 hL true).mpr (decide_eq_true hq)
        exact ⟨d, hd, by simp [hb]⟩
  · exact (prob_attemptResult hx hp0 hp1 hq0 hq1 (f := (!·)) fun b => by cases b <;> simp).trans (by simp)
  · exact (prob_attemptResult hx hp0 hp1 hq0 hq1 (f := id) fun b => by cases b <;> simp).trans (by simp)

/-- One flip of an encoding makes one codeword, the one hit, invalid (R128). -/
theorem countP_synd_modify_flipPos (ns : List Nibble) {m k : Nat} (hm : m < ns.length) (hk : k < 7) :
    ((ns.map encn).modify m fun c => flipPos c k).countP (fun c => synd c != 0#3) = 1 := by
  have hzero : ∀ ns : List Nibble, (ns.map encn).countP (fun c => synd c != 0#3) = 0 := by
    intro ns
    simp [List.countP_eq_zero]
  induction ns generalizing m with
  | nil => cases hm
  | cons n ns ih =>
    cases m with
    | zero =>
      have hflip : synd (flipPos (encn n) k) ≠ 0#3 := by
        rw [synd_flipPos_encn n ⟨k, hk⟩]
        exact errorSyndrome_ne_zero _
      rw [List.map_cons, List.modify_zero_cons, List.countP_cons_of_pos (by simpa using hflip), hzero]
    | succ m =>
      rw [List.map_cons, List.modify_succ_cons, List.countP_cons_of_neg (by simp), ih (Nat.lt_of_succ_lt_succ hm)]

theorem countP_synd_inj_enc {x : List Byte} {fire : Bool} {pos : Nat} (h : fire = true → pos < (enc x).length) :
    (codewordsOf (inj (enc x) fire pos)).countP (fun c => synd c != 0#3) = if fire then 1 else 0 := by
  cases fire with
  | false => simp [List.countP_eq_zero]
  | true =>
    have hpos := h rfl
    rw [enc_length] at hpos
    rw [inj_true, codewordsOf_flipAt (enc_length_mod_seven x), codewordsOf_enc,
      countP_synd_modify_flipPos _ (by rw [payloadNibbles_length]; omega) (Nat.mod_lt pos (by decide))]
    rfl

/-- Settles O53: the probabilities are those of `fire` and `lose`, and a flip makes one codeword invalid. -/
theorem impairmentOutcomeOfAttempt : Obligations.ImpairmentOutcomeOfAttempt := by
  refine ⟨fun d => rfl, fun p q L _ => ?_, fun x p fire pos t h => ?_⟩
  · obtain ⟨hclean, hcorrected, -, -⟩ := fireAndLoseAreIndependent p q L
    rw [← hclean, ← hcorrected]
    refine ⟨?_, ?_, ?_⟩
    · congr 1
      funext ⟨fire, pos, lose⟩
      cases fire <;> cases lose <;> rfl
    · congr 1
      funext ⟨fire, pos, lose⟩
      cases fire <;> cases lose <;> rfl
    · have hlost : (fun d : AttemptDraws => decide (d.impairment = .frameLost)) = fun d => id d.lose := by
        funext ⟨fire, pos, lose⟩
        cases fire <;> cases lose <;> rfl
      rw [hlost, prob_attemptLaw_lose]
      simp
  · obtain ⟨hwf, ht⟩ := answer_inj_iff.mp h
    obtain rfl : t = inj (enc x) fire pos := by simpa using ht
    have hpos : fire = true → pos < (enc x).length := by
      rintro rfl
      exact pos_lt_of_wf_inj hwf
    have hcount := countP_synd_inj_enc hpos
    refine ⟨?_, ?_, by rw [← List.countP_eq_length_filter, hcount]⟩
    · cases fire with
      | false => simp
      | true => simpa using flipAt_ne_self (hpos rfl)
    · have hsome : (∃ c ∈ codewordsOf (inj (enc x) fire pos), synd c ≠ 0#3) ↔
          0 < (codewordsOf (inj (enc x) fire pos)).countP (fun c => synd c != 0#3) := by
        simp [List.countP_pos_iff]
      rw [hsome, hcount]
      cases fire <;> simp

/-! ### The obligations of INJ's law -/

/-- Settles O54: an event of INJ is the positions it holds. -/
theorem injResultProbabilities : Obligations.InjResultProbabilities := by
  intro bits p hbits
  have hL : bits.length ≠ 0 := by simpa using hbits
  refine ⟨prob_injLaw_true p _, ?_, fun i hi => ?_, fun h0 h1 v hv hne => ?_, fun m k => prob_injLaw_codeword p,
    fun L => ⟨prob_injLaw_true p L, ?_⟩⟩
  · have hnone : ∀ i, i ∈ (∅ : Finset Nat) ↔ i < bits.length ∧ decide (inj bits true i = bits) = true := by
      intro i
      rw [decide_eq_true_iff, inj_true]
      simpa only [Finset.notMem_empty, false_iff, not_and] using flipAt_ne_self
    simp [prob_injLaw p hL (ev := fun d => decide (inj bits d.1 d.2 = bits)) hnone]
  · have hone : ∀ j, j ∈ ({i} : Finset Nat) ↔ j < bits.length ∧ decide (inj bits true j = flipAt bits i) = true := by
      intro j
      rw [Finset.mem_singleton, decide_eq_true_iff, inj_true, flipAt_eq_flipAt_iff hi]
      exact ⟨fun h => ⟨h ▸ hi, h⟩, And.right⟩
    simp [prob_injLaw p hL (ev := fun d => decide (inj bits d.1 d.2 = flipAt bits i)) hone, (flipAt_ne_self hi).symm]
  · obtain ⟨hfire, hpos⟩ := possible_of_mem_injLaw hL h0 h1 hv hne
    simp only [Instr.wf, (inUnitRange_num_iff p).mpr ⟨h0, h1⟩, hfire, hpos, Bool.and_true]
  · exact (prob_injLaw_fire p L id).trans (by simp)

/-! ### The obligations of runs -/

/-- Settles O56: by induction on the number of draws before. -/
theorem drawsAreIndependentOfEverythingBefore : Obligations.DrawsAreIndependentOfEverythingBefore := by
  intro host m
  refine ⟨prob_runLaw_true host m [], fun past o e hpast => ?_⟩
  simpa using prob_runLaw_past_and e (h := []) (m := m) (by simpa using hpast)

/-- Settles O57: the operations are drawn one after the other, and an attempt's are an INJ and a LOSE. -/
theorem drawsOfASequenceAreIndependent : Obligations.DrawsOfASequenceAreIndependent := by
  have hseq : ∀ (os : List DrawingOp) (es : List (OpDraw → Bool)), es.length = os.length →
      FinDist.prob (runLaw (inSequence os) os.length []) (allIn es) =
        (List.zipWith (fun o e => FinDist.prob o.law e) os es).prod :=
    fun os es hes => prob_runLaw_inSequence (done := []) (h := []) rfl hes
  refine ⟨hseq, fun p q L e f => ?_⟩
  have hinj : FinDist.prob (DrawingOp.inj p L).law e = FinDist.prob (injLaw p L) fun d => e (.inj d.1 d.2) :=
    prob_map (fun d : Bool × Nat => OpDraw.inj d.1 d.2) _ e
  have hlose : FinDist.prob (DrawingOp.lose q).law f = FinDist.prob (loseLaw q) fun b => f (.lose b) :=
    prob_map OpDraw.lose _ f
  have htwo := hseq [.inj p L, .lose q] [e, f] rfl
  rw [List.zipWith_cons_cons, List.zipWith_cons_cons, List.zipWith_nil_left, List.prod_cons, List.prod_singleton, hinj,
    hlose, ← prob_both_and] at htwo
  rw [prob_attemptLaw]
  exact htwo.symm

/-! ### Two INJ on one stream -/

/-- R163: an event of two INJ on a stream of `m` codewords that holds only where both flip, and there has one
probability whatever the first position. -/
theorem prob_two_injLaw {p y : Rat} {m : Nat} (hm : m ≠ 0) {ev : (Bool × Nat) × (Bool × Nat) → Bool}
    (hquiet : ∀ w, ev ((false, 0), w) = false)
    (hfire : ∀ i, i < 7 * m → FinDist.prob (injLaw p (7 * m)) (fun w => ev ((true, i), w)) = y) :
    FinDist.prob (FinDist.both (injLaw p (7 * m)) (injLaw p (7 * m))) ev = p * y := by
  have hp : FinDist.prob (injLaw p (7 * m)) (fun d => d.1) = p := (prob_injLaw_fire p _ id).trans (by simp)
  rw [prob_both_eq_sum]
  conv_rhs => rw [← hp, ← sum_map_mul_prob]
  congr 1
  refine List.map_congr_left fun v hv => ?_
  rw [injLaw_of_ne_zero p (by omega), List.mem_cons, List.mem_map] at hv
  obtain rfl | ⟨i, hi, rfl⟩ := hv
  · simp [hquiet]
  · rw [hfire i (List.mem_range.mp hi), if_pos rfl]

/-- R105, R163: after two INJ on an encoding DEC's bytes are wrong exactly when both flip, at different positions of one
codeword. -/
theorem wrong_bytes_after_two_inj_iff {x : List Byte} {f g : Bool} {i j : Nat} (hi : f = true → i < 14 * x.length) :
    (∃ y ∈ (dec (inj (inj (enc x) f i) g j)).toOption, y ≠ x) ↔ f = true ∧ g = true ∧ j / 7 = i / 7 ∧ j ≠ i := by
  have hdec : dec (inj (inj (enc x) f i) g j) = .ok (regroup (nibblesOf (inj (inj (enc x) f i) g j))) := by
    rw [dec_eq_ite, if_pos (by rw [inj_length, inj_length, enc_length]; omega)]
  have hwrong : (∃ y ∈ (dec (inj (inj (enc x) f i) g j)).toOption, y ≠ x) ↔
      regroup (nibblesOf (inj (inj (enc x) f i) g j)) ≠ x := by
    rw [hdec]
    simp [Except.toOption]
  rw [hwrong]
  cases f with
  | false =>
    rw [inj_false, nibblesOf_inj_enc, regroup_payloadNibbles]
    simp
  | true =>
    cases g with
    | false =>
      rw [inj_false, nibblesOf_inj_enc, regroup_payloadNibbles]
      simp
    | true =>
      rw [inj_true, inj_true]
      by_cases hdiv : j / 7 = i / 7
      · by_cases hji : j = i
        · simp [hji]
        · simp [hdiv, hji, regroup_nibblesOf_flipAt_flipAt_enc_ne (hi rfl) (Ne.symm hji) hdiv.symm]
      · simp [hdiv, nibblesOf_flipAt_flipAt_enc x (Ne.symm hdiv)]

/-- Settles O58: given the first flip, the second hits the same codeword, and another position of it. -/
theorem twoInjectionsCorruptWithTheStatedProbability : Obligations.TwoInjectionsCorruptWithTheStatedProbability := by
  intro x p hx
  have hm : 2 * x.length ≠ 0 := by simp [hx]
  rw [show 14 * x.length = 7 * (2 * x.length) by omega]
  constructor
  · rw [prob_two_injLaw hm (y := p / (2 * x.length : Nat)) (fun w => rfl) fun i hi => ?_]
    · ring
    · rw [← prob_injLaw_codeword p (show i / 7 < 2 * x.length by omega)]
      simp [eq_comm]
  · rw [prob_two_injLaw hm (y := 6 * p / (7 * (2 * x.length : Nat))) (fun w => ?_) fun i hi => ?_]
    · ring
    · rw [decide_eq_false_iff_not, wrong_bytes_after_two_inj_iff (by simp)]
      simp
    · rw [← prob_injLaw_codeword_other p hi]
      congr 1
      funext w
      rw [Bool.eq_iff_iff, decide_eq_true_iff, wrong_bytes_after_two_inj_iff (f := true) (i := i) (fun _ => by omega)]
      simp

end Sys2Proof.Machine
end
